-- ==== Sys2Proof/Word.lean ====
section
/-! DEFINITION. The two word types of the engine: a memory byte and a 32-bit register value (00_scope.md R8, R11, R12). -/

namespace Sys2Proof

/-- A byte, 0..255 (00_scope.md R12). -/
abbrev Byte := BitVec 8

/-- A register value or a command word: 32 bits, bit 0 the least significant (00_scope.md R8, R11). -/
abbrev Word := BitVec 32

end Sys2Proof
end

