-- ==== Sys2Proof/Machine/Bytes.lean ====
section
/-! DEFINITION. Byte sequences and their operations (00_scope.md R12 to R14). -/

namespace Sys2Proof.Machine

/-- `zeros(n)`: n bytes of 0x00 (00_scope.md R12). -/
def zeros (n : Nat) : List Byte := List.replicate n 0x00

/-- `rep(n, b)`: n copies of byte b (00_scope.md R12). -/
def rep (n : Nat) (b : Byte) : List Byte := List.replicate n b

/-- `a ⊕ b`, bytewise, for sequences of equal length (00_scope.md R13). -/
def xorBytes (a b : List Byte) : List Byte := List.zipWith (· ^^^ ·) a b

/-- `be(v, n)`: the n-byte big-endian encoding of v (00_scope.md R14). -/
def be (v n : Nat) : List Byte :=
  (List.range n).map fun i => BitVec.ofNat 8 (v >>> (8 * (n - 1 - i)))

/-- `le32(w)`: the 4-byte little-endian encoding of a word (00_scope.md R14). -/
def le32 (w : Word) : List Byte :=
  (List.range 4).map fun j => w.extractLsb' (8 * j) 8

/-- The word whose bytes, lane 0 first, are b0 b1 b2 b3: `le(a,b,c,d)` of 30_encoding.md R118. -/
def ofLanes (b0 b1 b2 b3 : Byte) : Word := b3 ++ b2 ++ b1 ++ b0

/-- `pad16(s)`: zero bytes up to the next multiple of 16 (00_scope.md R14). -/
def pad16 (s : List Byte) : List Byte := s ++ zeros ((16 - s.length % 16) % 16)

/-- The first `k` consecutive 16-byte pieces of `s`. -/
def chunks : Nat → List Byte → List (List Byte)
  | 0, _ => []
  | k + 1, s => s.take 16 :: chunks k (s.drop 16)

/-- `blocks(s)`, for a length that is a multiple of 16: its consecutive 16-byte blocks (00_scope.md R14). -/
def blocks (s : List Byte) : List (List Byte) := chunks (s.length / 16) s

end Sys2Proof.Machine
end

