-- ==== Sys2Proof/Machine/AesCore.lean ====
section
/-! DEFINITION. AESCore: the FIPS-197 AES-128 forward cipher, rule by rule of 40_aes_core.md. -/

namespace Sys2Proof.Machine

/-! ## Arithmetic in GF(2^8) (R141) -/

/-- `xtime(a)` = a • 0x02, modulo 0x11B (R141). -/
def xtime (a : Byte) : Byte := (a <<< 1) ^^^ (if a.getLsbD 7 then 0x1B else 0x00)

/-- `xtime` applied i times (R141). -/
def xtimes : Nat → Byte → Byte
  | 0, a => a
  | i + 1, a => xtimes i (xtime a)

/-- `a • b`: the XOR over the bits i of b that are 1 of xtime^i(a) (R141). -/
def gmul (a b : Byte) : Byte :=
  (List.range 8).foldl (fun acc i => if b.getLsbD i then acc ^^^ xtimes i a else acc) 0

/-- b is the multiplicative inverse of a: a • b = 0x01, and inv(0) = 0 (R141). -/
abbrev IsGfInv (a b : Byte) : Prop := if a = 0x00 then b = 0x00 else gmul a b = 0x01

/-! ## The S-box (R143, R144) -/

/-- The affine map A of the S-box's definition (R143). -/
def sboxAffine (x : Byte) : Byte :=
  (List.range 8).foldl (fun acc i =>
    if (x.getLsbD i ^^ x.getLsbD ((i + 4) % 8) ^^ x.getLsbD ((i + 5) % 8) ^^ x.getLsbD ((i + 6) % 8)
        ^^ x.getLsbD ((i + 7) % 8) ^^ (0x63 : Byte).getLsbD i)
    then acc ||| ((1 : Byte) <<< i) else acc) 0

/-- The sixteen rows of the S-box table, sixteen entries a row, column 0 leftmost (R144). -/
def sboxRows : List Nat :=
  [0x637c777bf26b6fc53001672bfed7ab76,
   0xca82c97dfa5947f0add4a2af9ca472c0,
   0xb7fd9326363ff7cc34a5e5f171d83115,
   0x04c723c31896059a071280e2eb27b275,
   0x09832c1a1b6e5aa0523bd6b329e32f84,
   0x53d100ed20fcb15b6acbbe394a4c58cf,
   0xd0efaafb434d338545f9027f503c9fa8,
   0x51a3408f929d38f5bcb6da2110fff3d2,
   0xcd0c13ec5f974417c4a77e3d645d1973,
   0x60814fdc222a908846eeb814de5e0bdb,
   0xe0323a0a4906245cc2d3ac629195e479,
   0xe7c8376d8dd54ea96c56f4ea657aae08,
   0xba78252e1ca6b4c6e8dd741f4bbd8b8a,
   0x703eb5664803f60e613557b986c11d9e,
   0xe1f8981169d98e949b1e87e9ce5528df,
   0x8ca1890dbfe6426841992d0fb054bb16]

/-- S(b): row the high hex digit of b, column the low one (R144). -/
def sbox (b : Byte) : Byte :=
  BitVec.ofNat 8 (sboxRows.getD (b.toNat / 16) 0 >>> (8 * (15 - b.toNat % 16)))

/-! ## The round transformations (R142, R145 to R148); t[r + 4c] is row r, column c -/

/-- SubBytes (R145). -/
def subBytes (t : List Byte) : List Byte := t.map sbox

/-- ShiftRows: the output at r + 4c takes the input at r + 4((c + r) mod 4) (R146). -/
def shiftRows (t : List Byte) : List Byte :=
  (List.range 16).map fun p => t.getD (p % 4 + 4 * ((p / 4 + p % 4) % 4)) 0

/-- One column of MixColumns (R147). -/
def mixColumn (a0 a1 a2 a3 : Byte) : List Byte :=
  [gmul 0x02 a0 ^^^ gmul 0x03 a1 ^^^ a2 ^^^ a3,
   a0 ^^^ gmul 0x02 a1 ^^^ gmul 0x03 a2 ^^^ a3,
   a0 ^^^ a1 ^^^ gmul 0x02 a2 ^^^ gmul 0x03 a3,
   gmul 0x03 a0 ^^^ a1 ^^^ a2 ^^^ gmul 0x02 a3]

/-- MixColumns: each of the four columns (R147). -/
def mixColumns (t : List Byte) : List Byte :=
  (List.range 4).flatMap fun c =>
    mixColumn (t.getD (4 * c) 0) (t.getD (4 * c + 1) 0) (t.getD (4 * c + 2) 0) (t.getD (4 * c + 3) 0)

/-- AddRoundKey (R148). -/
def addRoundKey (t rk : List Byte) : List Byte := xorBytes t rk

/-! ## Key expansion (R149, R150) -/

/-- Rcon[j]: Rcon[1] = 0x01 and Rcon[j+1] = xtime(Rcon[j]) (R150). -/
def rcon (j : Nat) : Byte := xtimes (j - 1) 0x01

/-- RotWord (R149). -/
def rotWord (w : List Byte) : List Byte := w.drop 1 ++ w.take 1

/-- SubWord (R149). -/
def subWord (w : List Byte) : List Byte := w.map sbox

/-- One step of the key expansion: w[i] from the words before it, newest first (R149). -/
def keyStep (ws : List (List Byte)) (i : Nat) : List (List Byte) :=
  let temp := ws.getD 0 []
  let temp := if i % 4 = 0 then xorBytes (subWord (rotWord temp)) [rcon (i / 4), 0x00, 0x00, 0x00] else temp
  xorBytes (ws.getD 3 []) temp :: ws

/-- The 44 words w[0..43] of the key expansion of a 16-byte key (R149). -/
def keyWords (k : List Byte) : List (List Byte) :=
  ((List.range' 4 40).foldl keyStep
    [(k.drop 12).take 4, (k.drop 8).take 4, (k.drop 4).take 4, k.take 4]).reverse

/-- Round keys: four words each, RK[j] = w[4j] || w[4j+1] || w[4j+2] || w[4j+3] (R149). -/
def groupWords : List (List Byte) → List (List Byte)
  | a :: b :: c :: d :: ws => (a ++ b ++ c ++ d) :: groupWords ws
  | _ => []

/-- KeyExpansion: the round keys RK[0..10] (R149). -/
def roundKeys (k : List Byte) : List (List Byte) := groupWords (keyWords k)

/-! ## The cipher (R157) -/

/-- A round with MixColumns, rounds 1 to 9 (R157). -/
def aesRound (t rk : List Byte) : List Byte :=
  addRoundKey (mixColumns (shiftRows (subBytes t))) rk

/-- The last round, without MixColumns (R157). -/
def aesLastRound (t rk : List Byte) : List Byte :=
  addRoundKey (shiftRows (subBytes t)) rk

/-- `AES128(k, b)`: key first, data second (R157, R158). -/
def aes128 (k b : List Byte) : List Byte :=
  let rks := roundKeys k
  aesLastRound (((rks.drop 1).take 9).foldl aesRound (xorBytes b (rks.getD 0 []))) (rks.getD 10 [])

end Sys2Proof.Machine
end

