-- ==== Sys2Proof/Config.lean ====
section
/-! DEFINITION. What the platform fixes (00_scope.md R9), as plain data, and the free values of the model. -/

namespace Sys2Proof

/-- A region: the bytes base, base + 1, …, base + len - 1; empty when len = 0 (00_scope.md R19, 20_memory.md R88). -/
structure Region where
  base : Nat
  len : Nat
  deriving DecidableEq, Repr

/-- The kind of a DMA access (00_scope.md R9). -/
inductive AccessKind where
  | read
  | write
  deriving DecidableEq, Repr

/-- A range of addresses at which DMA accesses of one kind end in a bus error:
the places where BusOK is false (00_scope.md R9). -/
structure BusHole where
  region : Region
  kind : AccessKind
  deriving DecidableEq, Repr

/-- The platform's parameters (00_scope.md R9), fixed for a machine: no step changes them.
DESIGN CHOICE (log 3, log 4, log 11), safe: a statement about every state is one about every platform. -/
structure Platform where
  /-- ENGINE_BASE / 0x100: the base is a multiple of 0x100 (10_state.md R33). -/
  windowPage : Nat
  /-- ENGINE_IRQ: the interrupt line of `irq`; no rule reads it (60_exceptions.md R295). -/
  irqLine : Nat
  /-- Where BusOK fails (60_exceptions.md R289). -/
  busHoles : List BusHole
  /-- Memory whose reads have side effects (20_memory.md R87). -/
  sideEffects : List Region
  deriving DecidableEq, Repr

/-- The platform of `State.reset`. DESIGN CHOICE (log 3, log 4, log 11), unsafe: the spec leaves all four open;
95_test_vectors.md takes BusOK true for every byte. -/
def Platform.default : Platform :=
  { windowPage := 0x400000, irqLine := 0, busHoles := [], sideEffects := [] }

/-- The free bytes: the byte of each draw (20_memory.md R87, 60_exceptions.md R289, 70_reset_and_hazards.md R320, R330).
It has no body, so nothing can be proved of its values (log 6). -/
opaque Config.freeByte : Nat → Byte

end Sys2Proof
end

