-- ==== Sys2Proof/Syntax.lean ====
section
/-! DEFINITION. The commands of the engine (spec/opcode_table.json, 30_encoding.md) and the error codes (60_exceptions.md R282). -/

namespace Sys2Proof

/-- The error codes of STATUS.ERR_CODE; the values 9 to 15 are never produced (60_exceptions.md R282). -/
inductive ErrorCode where
  | noError
  | badOpcode
  | badField
  | badNonceLen
  | badMacLen
  | badLength
  | addrRange
  | overlap
  | busError
  deriving DecidableEq, Repr

/-- The fields of a command word other than OP (30_encoding.md R111). -/
structure Fields where
  /-- NLEN, bits 7:4. -/
  nlen : BitVec 4
  /-- MLEN, bits 12:8. -/
  mlen : BitVec 5
  /-- RSVD, bits 31:13. -/
  rsvd : BitVec 19
  deriving DecidableEq, Repr

/-- A command: one constructor per row of spec/opcode_table.json, chosen by OP (30_encoding.md R113),
with the word's other fields as they stand; which of them are legal is R114's (WellFormed.lean). -/
inductive Instr where
  | aesBlock (f : Fields)
  | ccmEnc (f : Fields)
  | ccmDec (f : Fields)
  | mmoHash (f : Fields)
  | hmacMmo (f : Fields)
  deriving DecidableEq, Repr

/-- The fields of a command word, whichever the command. -/
def Instr.fields : Instr → Fields
  | .aesBlock f => f
  | .ccmEnc f => f
  | .ccmDec f => f
  | .mmoHash f => f
  | .hmacMmo f => f

end Sys2Proof
end

