-- ==== Sys2Proof/Machine/State.lean ====
section
/-! DEFINITION. The state of the machine (10_state.md, 20_memory.md R80), its reset value, and why a step can stop. -/

namespace Sys2Proof.Machine

/-- The phase of the engine (10_state.md R32). -/
inductive Phase where
  | idle
  | busy
  deriving DecidableEq, Repr

/-- CTRL; bits 31:2 are RAZ/WI and hold nothing (10_state.md R37). -/
structure Ctrl where
  irqEn : Bool
  releaseUnauth : Bool
  deriving DecidableEq, Repr

/-- The fields of STATUS other than BUSY, which is the phase (10_state.md R32, R39; log 8). -/
structure Status where
  done : Bool
  err : Bool
  authFail : Bool
  cmdIgnored : Bool
  errCode : ErrorCode
  deriving DecidableEq, Repr

/-- Four 32-bit words that hold 16 bytes: KEY0..3, NONCE0..3 and their latched copies (10_state.md R44, R45, R60). -/
structure Quad where
  w0 : Word
  w1 : Word
  w2 : Word
  w3 : Word
  deriving DecidableEq, Repr

/-- The latch LAT (10_state.md R60). -/
structure Latch where
  cmd : Word
  key : Quad
  nonce : Quad
  srcAddr : Word
  srcLen : Word
  adAddr : Word
  adLen : Word
  dstAddr : Word
  releaseUnauth : Bool
  deriving DecidableEq, Repr

/-- Memory, 2^32 bytes (20_memory.md R80): the bytes that differ from what an unlisted address reads as,
addresses strictly rising (`Memory.wf` in Ops.lean). -/
abbrev Memory := List Host.Cell

/-- What an address that is not listed reads as. DESIGN CHOICE (log 5), unsafe: the spec gives memory no contents;
the programs of 95_test_vectors.md section 7 take 0x00. -/
def Memory.unlisted : Byte := 0x00

/-- The width of a host's access to the register port (10_state.md R34). -/
inductive AccessWidth where
  | byte
  | half
  | word
  deriving DecidableEq, Repr

/-- What a host can do in one turn (10_state.md R53, R54; 30_encoding.md R118). -/
inductive HostOp where
  /-- RegRead at a window offset. -/
  | regRead (width : AccessWidth) (off : BitVec 8)
  /-- RegWrite of a value at a window offset. -/
  | regWrite (width : AccessWidth) (off : BitVec 8) (v : Word)
  /-- A load of one byte of memory. -/
  | memRead (addr : Word)
  /-- A store of one byte of memory; also that of any other bus master. -/
  | memWrite (addr : Word) (b : Byte)
  /-- The platform's store-to-device barrier (20_memory.md R91). -/
  | fence
  deriving DecidableEq, Repr

/-- Who moves: a host, the engine, or reset (00_scope.md R10). -/
inductive Turn where
  | host (op : HostOp)
  | engine
  | reset
  deriving DecidableEq, Repr

/-- The state of the machine. -/
structure State where
  /-- CTRL (R37). -/
  ctrl : Ctrl
  /-- STATUS (R39). -/
  status : Status
  /-- OUT_LEN (R42). -/
  outLen : Word
  /-- KEY0..KEY3 (R43). -/
  key : Quad
  /-- NONCE0..NONCE3 (R45). -/
  nonce : Quad
  /-- SRC_ADDR (R46). -/
  srcAddr : Word
  /-- SRC_LEN (R47). -/
  srcLen : Word
  /-- AD_ADDR (R48). -/
  adAddr : Word
  /-- AD_LEN (R49). -/
  adLen : Word
  /-- DST_ADDR (R50). -/
  dstAddr : Word
  /-- The phase (R32). -/
  phase : Phase
  /-- The latch LAT (R60). -/
  lat : Latch
  /-- Memory (20_memory.md R80). -/
  mem : Memory
  /-- The platform's parameters (00_scope.md R9). -/
  platform : Platform
  /-- The model's own: the turns to come; when none is left only the engine moves (log 1). -/
  schedule : List Turn
  /-- The model's own: the value the last host read returned (log 7). -/
  hostValue : Word
  /-- The model's own: how many free bytes have been drawn (log 6). -/
  draws : Nat
  deriving DecidableEq, Repr

/-- Why a step faults. -/
inductive Fault where
  /-- A register access that is not 32 bits wide at a multiple of 4, answered with a bus error response; raised by the
  host's turn (10_state.md R34). Safe. -/
  | registerPortError
  /-- A write, by another agent, into an input or output region of the running command; raised by the host's turn
  (70_reset_and_hazards.md R330). Safe. -/
  | bufferRace
  deriving DecidableEq, Repr

/-- Why a step has no meaning. -/
inductive Refusal where
  /-- An instruction without a meaning yet; raised by `exec` (no arm does so now). Safe. -/
  | notModelled (mnemonic : String)
  /-- A command with a region that meets the register window; raised by the execute step (20_memory.md R81). Safe. -/
  | regionInRegisterWindow
  /-- A command with a region in memory with read side effects; raised by the execute step (20_memory.md R87). Safe. -/
  | regionWithSideEffects
  /-- A host's load or store of memory with side effects, whose effect the spec does not give; raised by the host's turn
  (log 13). Safe. -/
  | hostAccessToDevice
  deriving DecidableEq, Repr

/-! ## Reset values (10_state.md R70) -/

/-- Four words of 0. -/
def Quad.zero : Quad := { w0 := 0, w1 := 0, w2 := 0, w3 := 0 }

/-- Every LAT field 0 (R70). -/
def Latch.zero : Latch :=
  { cmd := 0, key := Quad.zero, nonce := Quad.zero, srcAddr := 0, srcLen := 0, adAddr := 0, adLen := 0,
    dstAddr := 0, releaseUnauth := false }

/-- CTRL = 0 (R37). -/
def Ctrl.zero : Ctrl := { irqEn := false, releaseUnauth := false }

/-- STATUS = 0 (R39). -/
def Status.zero : Status :=
  { done := false, err := false, authFail := false, cmdIgnored := false, errCode := .noError }

/-- The machine right after reset on a platform (R70), with a schedule of turns to come and nothing in memory. -/
def State.resetOn (p : Platform) (turns : List Turn) : State :=
  { ctrl := Ctrl.zero, status := Status.zero, outLen := 0, key := Quad.zero, nonce := Quad.zero,
    srcAddr := 0, srcLen := 0, adAddr := 0, adLen := 0, dstAddr := 0, phase := .idle, lat := Latch.zero,
    mem := [], platform := p, schedule := turns, hostValue := 0, draws := 0 }

/-- The machine right after reset (R70). The platform, the empty schedule, `hostValue` and `draws` are the model's
choices (log 1, log 3, log 4, log 6, log 7). -/
def State.reset : State := State.resetOn Platform.default []

end Sys2Proof.Machine
end

