-- ==== Sys2Proof/Machine/Flags.lean ====
section
/-! DEFINITION. CTRL and STATUS as words, the W1C write, and `irq` (10_state.md R37, R39, R40; 60_exceptions.md R282, R295). -/

namespace Sys2Proof.Machine

/-- The value of ERR_CODE for a code (60_exceptions.md R282). -/
def errorCodeBits : ErrorCode → BitVec 4
  | .noError => 0
  | .badOpcode => 1
  | .badField => 2
  | .badNonceLen => 3
  | .badMacLen => 4
  | .badLength => 5
  | .addrRange => 6
  | .overlap => 7
  | .busError => 8

/-- A bit as a word with that bit in position n. -/
def bitAt (n : Nat) (b : Bool) : Word := if b then 1 <<< n else 0

/-- CTRL as it reads: bits 31:2 are 0 (10_state.md R37). -/
def Ctrl.word (c : Ctrl) : Word := bitAt 0 c.irqEn ||| bitAt 1 c.releaseUnauth

/-- CTRL as a write leaves it: v AND 0x00000003 (10_state.md R37, R54). -/
def Ctrl.ofWord (v : Word) : Ctrl := { irqEn := v.getLsbD 0, releaseUnauth := v.getLsbD 1 }

/-- STATUS.BUSY reads 1 exactly when the phase is BUSY (10_state.md R32). -/
def Phase.isBusy : Phase → Bool
  | .idle => false
  | .busy => true

/-- STATUS as it reads; the reserved bits are 0 (10_state.md R39). -/
def statusWord (p : Phase) (t : Status) : Word :=
  bitAt 0 p.isBusy ||| bitAt 1 t.done ||| bitAt 2 t.err ||| bitAt 3 t.authFail ||| bitAt 4 t.cmdIgnored
    ||| ((errorCodeBits t.errCode).setWidth 32 <<< 8)

/-- STATUS after a write of v: DONE, ERR and CMD_IGNORED are write-1-to-clear, nothing else changes (10_state.md R40). -/
def Status.clear (t : Status) (v : Word) : Status :=
  { t with
    done := t.done && !v.getLsbD 1
    err := t.err && !v.getLsbD 2
    cmdIgnored := t.cmdIgnored && !v.getLsbD 4 }

/-- irq = CTRL.IRQ_EN AND (STATUS.DONE OR STATUS.ERR) (60_exceptions.md R295). -/
def irq (s : State) : Bool := s.ctrl.irqEn && (s.status.done || s.status.err)

/-- The level `irq` gives an interrupt line: it is routed to ENGINE_IRQ alone (60_exceptions.md R295). -/
def irqLine (s : State) (line : Nat) : Bool := line == s.platform.irqLine && irq s

end Sys2Proof.Machine
end

