-- ==== Sys2Proof/WellFormed.lean ====
section
/-! DEFINITION. Which commands are legal: the legal field values of 30_encoding.md R114. -/

namespace Sys2Proof

/-- A whole-word command has NLEN = 0, MLEN = 0 and RSVD = 0 (R114). -/
abbrev Fields.Zero (f : Fields) : Prop := f.nlen = 0 ∧ f.mlen = 0 ∧ f.rsvd = 0

/-- NLEN ∈ {7, 8, 9, 10, 11, 12, 13} (R114). -/
abbrev Fields.LegalNonce (f : Fields) : Prop := 7 ≤ f.nlen.toNat ∧ f.nlen.toNat ≤ 13

/-- MLEN ∈ {4, 6, 8, 10, 12, 14, 16} (R114). -/
abbrev Fields.LegalMac (f : Fields) : Prop := f.mlen.toNat ∈ [4, 6, 8, 10, 12, 14, 16]

/-- A CCM command has RSVD = 0, a legal NLEN and a legal MLEN (R114). -/
abbrev Fields.LegalCcm (f : Fields) : Prop := f.rsvd = 0 ∧ f.LegalNonce ∧ f.LegalMac

/-- The command's word is legal (R114). -/
abbrev Instr.WellFormed (i : Instr) : Prop :=
  match i with
  | .aesBlock f => f.Zero
  | .ccmEnc f => f.LegalCcm
  | .ccmDec f => f.LegalCcm
  | .mmoHash f => f.Zero
  | .hmacMmo f => f.Zero

end Sys2Proof
end

