-- ==== Sys2Proof/Decode.lean ====
section
/-! DEFINITION. Decoding and encoding of the 32-bit command word (30_encoding.md R110 to R117). -/

namespace Sys2Proof

/-- The fields of a word: NLEN = v[7:4], MLEN = v[12:8], RSVD = v[31:13] (R111). -/
def fieldsOf (v : Word) : Fields :=
  { nlen := v.extractLsb' 4 4, mlen := v.extractLsb' 8 5, rsvd := v.extractLsb' 13 19 }

/-- The command a word names by its OP = v[3:0], with the word's fields; a reserved OP names none and is BAD_OPCODE
(R113, R115; 60_exceptions.md R290). Total on every word. -/
def decode (v : Word) : Except ErrorCode Instr :=
  match (v.extractLsb' 0 4).toNat with
  | 1 => .ok (.aesBlock (fieldsOf v))
  | 2 => .ok (.ccmEnc (fieldsOf v))
  | 3 => .ok (.ccmDec (fieldsOf v))
  | 4 => .ok (.mmoHash (fieldsOf v))
  | 5 => .ok (.hmacMmo (fieldsOf v))
  | _ => .error .badOpcode

/-- The field checks of a whole-word command: BAD_FIELD unless RSVD, NLEN and MLEN are 0 (R116). -/
def zeroFieldsError (f : Fields) : Option ErrorCode :=
  if f.rsvd ≠ 0 then some .badField
  else if f.nlen ≠ 0 ∨ f.mlen ≠ 0 then some .badField
  else none

/-- The field checks of a CCM command, in R116's order: RSVD, then N, then M. -/
def ccmFieldsError (f : Fields) : Option ErrorCode :=
  if f.rsvd ≠ 0 then some .badField
  else if f.nlen.toNat < 7 ∨ f.nlen.toNat > 13 then some .badNonceLen
  else if f.mlen.toNat ∉ [4, 6, 8, 10, 12, 14, 16] then some .badMacLen
  else none

/-- The first failing check of R116 after the OP check, for a command. -/
def Instr.fieldError : Instr → Option ErrorCode
  | .aesBlock f => zeroFieldsError f
  | .ccmEnc f => ccmFieldsError f
  | .ccmDec f => ccmFieldsError f
  | .mmoHash f => zeroFieldsError f
  | .hmacMmo f => zeroFieldsError f

/-- R116's Decode: a legal command, or the error code of the first failing check. -/
def decodeLegal (v : Word) : Except ErrorCode Instr :=
  match decode v with
  | .error e => .error e
  | .ok i =>
    match i.fieldError with
    | some e => .error e
    | none => .ok i

/-- The word the decoder reads from an instruction of `nbits` bits, numbered as spec/opcode_table.json numbers them:
a command is one 32-bit word, bit 0 its least significant (R110, R111), and every bit above `nbits` is 0. -/
def tableWord (nbits w : Nat) : Word := BitVec.ofNat 32 (w % 2 ^ nbits)

/-- What the decoder reads from such an instruction. -/
def decodeTableWord (nbits w : Nat) : Option Instr :=
  match decode (tableWord nbits w) with
  | .ok i => some i
  | .error _ => none

/-! ## Encoding (R111, R117) -/

/-- OP of a command (R113). -/
def Instr.opField : Instr → BitVec 4
  | .aesBlock _ => 0x1
  | .ccmEnc _ => 0x2
  | .ccmDec _ => 0x3
  | .mmoHash _ => 0x4
  | .hmacMmo _ => 0x5

/-- The word of a command: RSVD, MLEN, NLEN, OP, most significant first (R111). -/
def encode (i : Instr) : Word := i.fields.rsvd ++ i.fields.mlen ++ i.fields.nlen ++ i.opField

end Sys2Proof
end

