-- ==== Sys2Proof/Machine/Operands.lean ====
section
/-! DEFINITION. The operands of the commands: key and nonce bytes, CCM parameters, and the regions of a command
(10_state.md R44, R45; 41_ccm.md R181; 20_memory.md R88; 60_exceptions.md R287, R288). -/

namespace Sys2Proof.Machine

/-- KeyBytes and NonceBytes: `le32` of the four words in order (10_state.md R44, R45). -/
def Quad.bytes (q : Quad) : List Byte := le32 q.w0 ++ le32 q.w1 ++ le32 q.w2 ++ le32 q.w3

/-! ## CCM parameters (41_ccm.md R181) -/

/-- N = NLEN (30_encoding.md R112). -/
def ccmN (f : Fields) : Nat := f.nlen.toNat

/-- M = MLEN, the tag length in bytes itself (30_encoding.md R112). -/
def ccmM (f : Fields) : Nat := f.mlen.toNat

/-- L = 15 − N (R181). -/
def ccmL (f : Fields) : Nat := 15 - ccmN f

/-- nonce = take(N, LAT.NONCE) (R181). -/
def ccmNonce (f : Fields) (l : Latch) : List Byte := l.nonce.bytes.take (ccmN f)

/-! ## Regions (20_memory.md R88) -/

/-- Address a is a byte of the region (R95). -/
abbrev inRegion (r : Region) (a : Nat) : Prop := r.base ≤ a ∧ a < r.base + r.len

/-- The input regions of a command. -/
def inputRegions (i : Instr) (l : Latch) : List Region :=
  match i with
  | .aesBlock _ => [⟨l.srcAddr.toNat, 16⟩]
  | .ccmEnc _ => [⟨l.srcAddr.toNat, l.srcLen.toNat⟩, ⟨l.adAddr.toNat, l.adLen.toNat⟩]
  | .ccmDec _ => [⟨l.srcAddr.toNat, l.srcLen.toNat⟩, ⟨l.adAddr.toNat, l.adLen.toNat⟩]
  | .mmoHash _ => [⟨l.srcAddr.toNat, l.srcLen.toNat⟩]
  | .hmacMmo _ => [⟨l.srcAddr.toNat, l.srcLen.toNat⟩]

/-- The output length of a command. For CCM_DEC it is defined only when SRC_LEN ≥ M; when it is not, the
subtraction gives 0, a region without bytes, and the command ends in BAD_LENGTH before any region is used. -/
def outputLength (i : Instr) (l : Latch) : Nat :=
  match i with
  | .aesBlock _ => 16
  | .ccmEnc f => l.srcLen.toNat + ccmM f
  | .ccmDec f => l.srcLen.toNat - ccmM f
  | .mmoHash _ => 16
  | .hmacMmo _ => 16

/-- The output region of a command. -/
def outputRegion (i : Instr) (l : Latch) : Region := ⟨l.dstAddr.toNat, outputLength i l⟩

/-- All regions of a command, inputs in table order, then the output (60_exceptions.md R286). -/
def regions (i : Instr) (l : Latch) : List Region := inputRegions i l ++ [outputRegion i l]

/-- InRange((a, n)): n = 0, or a + n ≤ 2^32 (60_exceptions.md R287). DESIGN CHOICE (log 23), unsafe: R287 ends with a sentence
by which a CCM_ENC output longer than 2^32 − 1 fails for every DST_ADDR; at length 2^32 and DST_ADDR = 0 it and the formula
disagree, and the model follows the formula. -/
def inRange (r : Region) : Bool := r.len == 0 || decide (r.base + r.len ≤ 2 ^ 32)

/-- Overlaps((a1, n1), (a2, n2)) (60_exceptions.md R288). -/
def overlaps (r1 r2 : Region) : Bool :=
  decide (r1.len > 0) && decide (r2.len > 0) &&
    decide (r1.base < r2.base + r2.len) && decide (r2.base < r1.base + r1.len)

/-! ## The platform's parameters -/

/-- The register window, ENGINE_BASE to ENGINE_BASE + 0xFF (10_state.md R33). -/
def window (p : Platform) : Region := ⟨0x100 * p.windowPage, 0x100⟩

/-- BusOK(addr, kind) (00_scope.md R9). -/
def busOK (p : Platform) (a : Nat) (k : AccessKind) : Bool :=
  !p.busHoles.any fun h => h.kind == k && decide (inRegion h.region a)

/-- BusOK for every byte of a region (60_exceptions.md R289). -/
def regionBusOK (p : Platform) (r : Region) (k : AccessKind) : Bool :=
  !p.busHoles.any fun h => h.kind == k && overlaps h.region r

end Sys2Proof.Machine
end

