-- ==== Sys2Proof/Machine/Ops.lean ====
section
/-! DEFINITION. Named operations over memory and registers: the DMA primitives (00_scope.md R16), free bytes, completion
and error completion (60_exceptions.md R291, R292), validation (R286), and the shared shape of a command (R290). -/

namespace Sys2Proof.Machine

/-! ## Memory -/

/-- The canonical form: addresses strictly rising and below 2^32, no entry equal to what an unlisted address reads as. -/
abbrev Memory.wf (m : Memory) : Prop :=
  m.Pairwise (fun c d => c.1 < d.1) ∧ ∀ c ∈ m, c.1 < 2 ^ 32 ∧ c.2 ≠ Memory.unlisted

/-- The byte at an address. -/
def readByte : Memory → Nat → Byte
  | [], _ => Memory.unlisted
  | (x, y) :: m, a => if x = a then y else readByte m a

/-- Store one byte, keeping the canonical form. -/
def writeByte : Memory → Nat → Byte → Memory
  | [], a, b => if b = Memory.unlisted then [] else [(a, b)]
  | (x, y) :: m, a, b =>
    if a < x then
      if b = Memory.unlisted then (x, y) :: m else (a, b) :: (x, y) :: m
    else if a = x then
      if b = Memory.unlisted then m else (a, b) :: m
    else (x, y) :: writeByte m a b

/-- MemRead(addr, n): the bytes at addr, addr + 1, …, addr + n − 1 (00_scope.md R16). -/
def readBytes (m : Memory) (a n : Nat) : List Byte := (List.range n).map fun i => readByte m (a + i)

/-- The bytes of a region, in order. -/
def readRegion (m : Memory) (r : Region) : List Byte := readBytes m r.base r.len

/-- MemWrite(addr, n, s): s[i] to addr + i (00_scope.md R16). -/
def writeBytes : Memory → Nat → List Byte → Memory
  | m, _, [] => m
  | m, a, b :: bs => writeBytes (writeByte m a b) (a + 1) bs

/-- Free bytes, draw by draw, at the addresses a, …, a + n − 1 for which `ok` holds; the others keep their value.
Byte a + i takes draw d + i. -/
def drawBytes (ok : Nat → Bool) (m : Memory) (a d : Nat) : Nat → Memory
  | 0 => m
  | n + 1 =>
    if ok (a + n) then writeByte (drawBytes ok m a d n) (a + n) (Config.freeByte (d + n))
    else drawBytes ok m a d n

/-- The bytes of a region at which `ok` holds become free bytes. -/
def State.drawRegion (s : State) (ok : Nat → Bool) (r : Region) : State :=
  { s with mem := drawBytes ok s.mem r.base s.draws r.len, draws := s.draws + r.len }

/-! ## Completion (60_exceptions.md R291, R292) -/

/-- `Complete(out_len, auth_fail)`: successful completion (R291). -/
def complete (outLen : Nat) (authFail : Bool) (s : State) : State :=
  { s with
    outLen := BitVec.ofNat 32 outLen
    status := { s.status with authFail := authFail, errCode := .noError, err := false, done := true }
    phase := .idle }

/-- `raise EngineError(code)`: error completion (R292), the engine's only way of taking an exception (R280). -/
def raiseError (code : ErrorCode) (s : State) : State :=
  { s with
    outLen := 0
    status := { s.status with authFail := false, errCode := code, done := false, err := true }
    phase := .idle }

/-- Acknowledgement, the engine's analogue of a return from an exception: a W1C write of STATUS (10_state.md R40,
60_exceptions.md R298). It restores nothing. -/
def acknowledge (v : Word) (s : State) : State := { s with status := s.status.clear v }

/-! ## Validation (60_exceptions.md R286) -/

/-- Stage 2: lengths. -/
def lengthError (i : Instr) (l : Latch) : Option ErrorCode :=
  match i with
  | .aesBlock _ => if l.srcLen.toNat ≠ 16 then some .badLength else none
  | .ccmEnc f => if l.srcLen.toNat ≥ 2 ^ (8 * ccmL f) then some .badLength else none
  | .ccmDec f =>
    if l.srcLen.toNat < ccmM f ∨ l.srcLen.toNat - ccmM f ≥ 2 ^ (8 * ccmL f) then some .badLength else none
  | .mmoHash _ => none
  | .hmacMmo _ => none

/-- Stage 3: address ranges. -/
def rangeError (i : Instr) (l : Latch) : Option ErrorCode :=
  if (regions i l).all inRange then none else some .addrRange

/-- Stage 4: overlap of the output region with an input region. -/
def overlapError (i : Instr) (l : Latch) : Option ErrorCode :=
  if (inputRegions i l).any fun r => overlaps r (outputRegion i l) then some .overlap else none

/-- `Validate()`: the first failing check, in the order of the stages; no stage touches memory. Stage 1's OP check is
the choice of the command (`decode`); its other checks are `fieldError`. -/
def validate (i : Instr) (l : Latch) : Option ErrorCode :=
  i.fieldError.or ((lengthError i l).or ((rangeError i l).or (overlapError i l)))

/-! ## The execute step's shape (60_exceptions.md R289, R290) -/

/-- Why the model takes no step for a valid command: a region in the register window (20_memory.md R81), or in memory
with read side effects (20_memory.md R87). DEDUCED (log 10, log 11), safe. -/
def platformRefusal (p : Platform) (i : Instr) (l : Latch) : Option Refusal :=
  if (regions i l).any fun r => overlaps r (window p) then some .regionInRegisterWindow
  else if (regions i l).any fun r => p.sideEffects.any (overlaps r) then some .regionWithSideEffects
  else none

/-- No DMA access of the command meets a bus error (60_exceptions.md R289). -/
def dmaOK (p : Platform) (i : Instr) (l : Latch) : Bool :=
  (inputRegions i l).all (regionBusOK p · .read) && regionBusOK p (outputRegion i l) .write

/-- The BUS_ERROR completion: each output byte with BusOK(y, write) becomes a free byte (60_exceptions.md R289; log 6).
DESIGN CHOICE (log 24), unsafe: R289 does not say what an output byte holds at which BusOK(y, write) is false, and the model
keeps the byte it held. -/
def busErrorCompletion (i : Instr) (s : State) : State :=
  raiseError .busError (s.drawRegion (fun a => busOK s.platform a .write) (outputRegion i s.lat))

/-- What a command computes: the bytes of its output region, and whether a tag failed to verify. -/
structure Result where
  out : List Byte
  authFail : Bool
  deriving DecidableEq, Repr

/-- The successful end of a command: its output is written at LAT.DST_ADDR, then it completes (R291). -/
def finish (i : Instr) (r : Result) (s : State) : State :=
  complete (outputLength i s.lat) r.authFail { s with mem := writeBytes s.mem s.lat.dstAddr.toNat r.out }

/-- The execute step of a command (R290): Validate, then its DMA reads, its transform and its DMA writes, then its
completion; one atomic transition. The transform is a function of LAT and of memory (10_state.md R61). -/
def runCommand (i : Instr) (transform : Latch → Memory → Result) (s : State) :
    Host.Outcome State Fault Refusal :=
  match validate i s.lat with
  | some code => .next (raiseError code s)
  | none =>
    match platformRefusal s.platform i s.lat with
    | some r => .refused r
    | none =>
      if dmaOK s.platform i s.lat then .next (finish i (transform s.lat s.mem) s)
      else .next (busErrorCompletion i s)

end Sys2Proof.Machine
end

