-- ==== Sys2Proof/Machine/Aes.lean ====
section
/-! DEFINITION. The AES_BLOCK command (40_aes_core.md R170). -/

namespace Sys2Proof.Machine

/-- AES_BLOCK's transform: ct = AES128(LAT.KEY, MemRead(LAT.SRC_ADDR, 16)) (R170). -/
def aesBlockResult (l : Latch) (m : Memory) : Result :=
  { out := aes128 l.key.bytes (readBytes m l.srcAddr.toNat 16), authFail := false }

/-- AES_BLOCK (R170). -/
def execAesBlock (f : Fields) (s : State) : Host.Outcome State Fault Refusal :=
  runCommand (.aesBlock f) aesBlockResult s

end Sys2Proof.Machine
end

