-- ==== Sys2Proof/Machine/Ccm.lean ====
section
/-! DEFINITION. CCMTransform and the CCM_ENC and CCM_DEC commands, rule by rule of 41_ccm.md. -/

namespace Sys2Proof.Machine

/-! ## The formatting function (R183 to R186); L = 15 − N, N the length of the nonce (R181) -/

/-- flagsB0: Adata at bit 6, (M−2)/2 at bits 5:3, L−1 at bits 2:0 (R183). -/
def flagsB0 (adLen tagLen lenSize : Nat) : Byte :=
  BitVec.ofNat 8 (((if adLen > 0 then 1 else 0) <<< 6) ||| (((tagLen - 2) / 2) <<< 3) ||| (lenSize - 1))

/-- B0 = [flagsB0] || nonce || be(pLen, L) (R183). -/
def blockB0 (nonce : List Byte) (adLen pLen tagLen : Nat) : List Byte :=
  flagsB0 adLen tagLen (15 - nonce.length) :: (nonce ++ be pLen (15 - nonce.length))

/-- AdHdr(a) (R184); a is below 2^32, the width of AD_LEN. -/
def adHdr (a : Nat) : List Byte :=
  if a = 0 then [] else if a < 0xFF00 then be a 2 else [0xFF, 0xFE] ++ be a 4

/-- ADBlocks(A): header and associated data, padded together (R185). -/
def adBlocks (ad : List Byte) : List Byte :=
  if ad.length > 0 then pad16 (adHdr ad.length ++ ad) else []

/-- Format(nonce, A, P) = B0 || ADBlocks(A) || pad16(P) (R186). -/
def ccmFormat (nonce ad payload : List Byte) (tagLen : Nat) : List Byte :=
  blockB0 nonce ad.length payload.length tagLen ++ adBlocks ad ++ pad16 payload

/-! ## CBC-MAC, counter blocks and keystream (R187 to R189) -/

/-- The last chaining value of the CBC-MAC over a stream (R187). -/
def cbcMac (k stream : List Byte) : List Byte :=
  (blocks stream).foldl (fun y x => aes128 k (xorBytes y x)) (zeros 16)

/-- MAC(K, nonce, A, P, M): the unmasked tag T (R187). -/
def ccmMac (k nonce ad payload : List Byte) (tagLen : Nat) : List Byte :=
  (cbcMac k (ccmFormat nonce ad payload tagLen)).take tagLen

/-- A_i = [L − 1] || nonce || be(i, L) (R188). -/
def counterBlock (nonce : List Byte) (i : Nat) : List Byte :=
  BitVec.ofNat 8 (15 - nonce.length - 1) :: (nonce ++ be i (15 - nonce.length))

/-- The keystream blocks S_1, S_2, …, S_m of n bytes, m = ceil(n / 16) (R189). -/
def keyStreamBlocks (k nonce : List Byte) (n : Nat) : List (List Byte) :=
  (List.range' 1 ((n + 15) / 16)).map fun i => aes128 k (counterBlock nonce i)

/-- KS(K, nonce, n): S_1 || S_2 || …, cut to n bytes (R189). -/
def keyStream (k nonce : List Byte) (n : Nat) : List Byte := (keyStreamBlocks k nonce n).flatten.take n

/-- U = T ⊕ take(M, S_0) (R191). -/
def maskTag (k nonce tag : List Byte) (tagLen : Nat) : List Byte :=
  xorBytes tag ((aes128 k (counterBlock nonce 0)).take tagLen)

/-! ## Encryption and decryption (R192, R193) -/

/-- CCMEnc(K, nonce, A, P, M) = C || U (R192). -/
def ccmEnc (k nonce ad payload : List Byte) (tagLen : Nat) : List Byte :=
  xorBytes payload (keyStream k nonce payload.length)
    ++ maskTag k nonce (ccmMac k nonce ad payload tagLen) tagLen

/-- CCMDec(K, nonce, A, I, M): the payload, and whether all M bytes of the tag agree (R193). -/
def ccmDec (k nonce ad input : List Byte) (tagLen : Nat) : List Byte × Bool :=
  let pLen := input.length - tagLen
  let payload := xorBytes (input.take pLen) (keyStream k nonce pLen)
  (payload, maskTag k nonce (ccmMac k nonce ad payload tagLen) tagLen == (input.drop pLen).take tagLen)

/-! ## The commands (R197 to R200) -/

/-- MemRead(LAT.SRC_ADDR, LAT.SRC_LEN). -/
def srcBytes (l : Latch) (m : Memory) : List Byte := readBytes m l.srcAddr.toNat l.srcLen.toNat

/-- MemRead(LAT.AD_ADDR, LAT.AD_LEN); no read when AD_LEN = 0. -/
def adBytes (l : Latch) (m : Memory) : List Byte := readBytes m l.adAddr.toNat l.adLen.toNat

/-- CCM_ENC's transform (R197). -/
def ccmEncResult (f : Fields) (l : Latch) (m : Memory) : Result :=
  { out := ccmEnc l.key.bytes (ccmNonce f l) (adBytes l m) (srcBytes l m) (ccmM f), authFail := false }

/-- CCM_DEC's transform: on a failed tag the payload is released only under RELEASE_UNAUTH (R198 to R200). -/
def ccmDecResult (f : Fields) (l : Latch) (m : Memory) : Result :=
  let d := ccmDec l.key.bytes (ccmNonce f l) (adBytes l m) (srcBytes l m) (ccmM f)
  { out := if d.2 || l.releaseUnauth then d.1 else zeros (l.srcLen.toNat - ccmM f), authFail := !d.2 }

/-- CCM_ENC (R197). -/
def execCcmEnc (f : Fields) (s : State) : Host.Outcome State Fault Refusal :=
  runCommand (.ccmEnc f) (ccmEncResult f) s

/-- CCM_DEC (R198). -/
def execCcmDec (f : Fields) (s : State) : Host.Outcome State Fault Refusal :=
  runCommand (.ccmDec f) (ccmDecResult f) s

end Sys2Proof.Machine
end

