-- ==== Sys2Proof/Machine/Mmo.lean ====
section
/-! DEFINITION. MMOHash and the MMO_HASH command, rule by rule of 42_mmo_hash.md (with 90_conflicts.md C1, C2). -/

namespace Sys2Proof.Machine

/-- The number z of zero bytes of the padding, for r = n mod 16 (R231). -/
def mmoZeros (r : Nat) : Nat := if r ≤ 13 then 13 - r else 29 - r

/-- MMOPad(X) = X || [0x80] || zeros(z) || be(8n mod 2^16, 2) (R231). -/
def mmoPad (x : List Byte) : List Byte :=
  x ++ [0x80] ++ zeros (mmoZeros (x.length % 16)) ++ be (8 * x.length % 2 ^ 16) 2

/-- Compress(H, B) = AES128(H, B) ⊕ B: key the chaining value, data the message block (R234). -/
def mmoCompress (h b : List Byte) : List Byte := xorBytes (aes128 h b) b

/-- MMOHash(X) (R235). -/
def mmoHash (x : List Byte) : List Byte := (blocks (mmoPad x)).foldl mmoCompress (zeros 16)

/-- MMO_HASH's transform (R240). -/
def mmoHashResult (l : Latch) (m : Memory) : Result :=
  { out := mmoHash (readBytes m l.srcAddr.toNat l.srcLen.toNat), authFail := false }

/-- MMO_HASH (R240). -/
def execMmoHash (f : Fields) (s : State) : Host.Outcome State Fault Refusal :=
  runCommand (.mmoHash f) mmoHashResult s

end Sys2Proof.Machine
end

