-- ==== Sys2Proof/Machine/Hmac.lean ====
section
/-! DEFINITION. HMACConstruction and the HMAC_MMO command, rule by rule of 43_hmac.md. -/

namespace Sys2Proof.Machine

/-- HMACMMO(K, X) = MMOHash(K ⊕ opad || MMOHash(K ⊕ ipad || X)) (R261, R262). -/
def hmacMmo (k x : List Byte) : List Byte :=
  mmoHash (xorBytes k (rep 16 0x5C) ++ mmoHash (xorBytes k (rep 16 0x36) ++ x))

/-- HMAC_MMO's transform (R265). -/
def hmacMmoResult (l : Latch) (m : Memory) : Result :=
  { out := hmacMmo l.key.bytes (readBytes m l.srcAddr.toNat l.srcLen.toNat), authFail := false }

/-- HMAC_MMO (R265). -/
def execHmacMmo (f : Fields) (s : State) : Host.Outcome State Fault Refusal :=
  runCommand (.hmacMmo f) hmacMmoResult s

end Sys2Proof.Machine
end

