-- ==== Sys2Proof/Machine/Dispatch.lean ====
section
/-! DEFINITION. The execute step's choice of a command's meaning (60_exceptions.md R290): one arm per constructor of Instr. -/

namespace Sys2Proof.Machine

def exec (i : Instr) (s : State) : Host.Outcome State Fault Refusal :=
  match i with
  | .aesBlock f => Sys2Proof.Machine.execAesBlock f s
  | .ccmEnc f => Sys2Proof.Machine.execCcmEnc f s
  | .ccmDec f => Sys2Proof.Machine.execCcmDec f s
  | .mmoHash f => Sys2Proof.Machine.execMmoHash f s
  | .hmacMmo f => Sys2Proof.Machine.execHmacMmo f s

end Sys2Proof.Machine
end

