-- ==== Sys2Proof/Machine/Registers.lean ====
section
/-! DEFINITION. The register map, RegRead and RegWrite, acceptance and ignored commands (10_state.md R33 to R54, R65, R66). -/

namespace Sys2Proof.Machine

/-- The named registers (10_state.md R36). -/
inductive Reg where
  | ctrl
  | cmd
  | status
  | outLen
  | key0
  | key1
  | key2
  | key3
  | nonce0
  | nonce1
  | nonce2
  | nonce3
  | srcAddr
  | srcLen
  | adAddr
  | adLen
  | dstAddr
  deriving DecidableEq, Repr

/-- The register map: offset and name (R36). -/
def registerMap : List (BitVec 8 × Reg) :=
  [(0x00, .ctrl), (0x04, .cmd), (0x08, .status), (0x0C, .outLen),
   (0x10, .key0), (0x14, .key1), (0x18, .key2), (0x1C, .key3),
   (0x20, .nonce0), (0x24, .nonce1), (0x28, .nonce2), (0x2C, .nonce3),
   (0x30, .srcAddr), (0x34, .srcLen), (0x38, .adAddr), (0x3C, .adLen), (0x40, .dstAddr)]

/-- The register at an offset; none at an unnamed one (R35, R36). -/
def regAt (off : BitVec 8) : Option Reg := registerMap.lookup off

/-- An access the register port takes: 32 bits wide, at a multiple of 4 (R34). -/
def portAccess (width : AccessWidth) (off : BitVec 8) : Bool := width == .word && off.toNat % 4 == 0

/-- The value a register reads as; CMD and KEYn read 0 (R37 to R50, R52). -/
def readReg (r : Reg) (s : State) : Word :=
  match r with
  | .ctrl => s.ctrl.word
  | .cmd => 0
  | .status => statusWord s.phase s.status
  | .outLen => s.outLen
  | .key0 => 0
  | .key1 => 0
  | .key2 => 0
  | .key3 => 0
  | .nonce0 => s.nonce.w0
  | .nonce1 => s.nonce.w1
  | .nonce2 => s.nonce.w2
  | .nonce3 => s.nonce.w3
  | .srcAddr => s.srcAddr
  | .srcLen => s.srcLen
  | .adAddr => s.adAddr
  | .adLen => s.adLen
  | .dstAddr => s.dstAddr

/-- The value an aligned 32-bit access reads at an offset; an unnamed offset reads 0 (R35, R53). -/
def readOffset (off : BitVec 8) (s : State) : Word :=
  match regAt off with
  | some r => readReg r s
  | none => 0

/-- The latch a CMD write of v takes (R60, R65). -/
def latchOf (v : Word) (s : State) : Latch :=
  { cmd := v, key := s.key, nonce := s.nonce, srcAddr := s.srcAddr, srcLen := s.srcLen, adAddr := s.adAddr,
    adLen := s.adLen, dstAddr := s.dstAddr, releaseUnauth := s.ctrl.releaseUnauth }

/-- `Accept(v)`; CMD_IGNORED is not changed (R65). -/
def accept (v : Word) (s : State) : State :=
  { s with
    lat := latchOf v s
    status := { s.status with done := false, err := false, authFail := false, errCode := .noError }
    outLen := 0
    phase := .busy }

/-- `IgnoreCmd()` (R66). -/
def ignoreCmd (s : State) : State := { s with status := { s.status with cmdIgnored := true } }

/-- A write of v to CMD (R38). -/
def writeCmd (v : Word) (s : State) : State :=
  match s.phase with
  | .idle => accept v s
  | .busy => ignoreCmd s

/-- A write of v to a register (R37 to R51, R54). -/
def writeReg (r : Reg) (v : Word) (s : State) : State :=
  match r with
  | .ctrl => { s with ctrl := Ctrl.ofWord v }
  | .cmd => writeCmd v s
  | .status => acknowledge v s
  | .outLen => s
  | .key0 => { s with key := { s.key with w0 := v } }
  | .key1 => { s with key := { s.key with w1 := v } }
  | .key2 => { s with key := { s.key with w2 := v } }
  | .key3 => { s with key := { s.key with w3 := v } }
  | .nonce0 => { s with nonce := { s.nonce with w0 := v } }
  | .nonce1 => { s with nonce := { s.nonce with w1 := v } }
  | .nonce2 => { s with nonce := { s.nonce with w2 := v } }
  | .nonce3 => { s with nonce := { s.nonce with w3 := v } }
  | .srcAddr => { s with srcAddr := v }
  | .srcLen => { s with srcLen := v }
  | .adAddr => { s with adAddr := v }
  | .adLen => { s with adLen := v }
  | .dstAddr => { s with dstAddr := v }

/-- An aligned 32-bit write at an offset; an unnamed offset ignores it (R35, R54). -/
def writeOffset (off : BitVec 8) (v : Word) (s : State) : State :=
  match regAt off with
  | some r => writeReg r v s
  | none => s

/-- `RegRead(off)`: the value goes to the host, and no other state changes (R52, R53). -/
def regRead (width : AccessWidth) (off : BitVec 8) (s : State) : Host.Outcome State Fault Refusal :=
  if portAccess width off then .next { s with hostValue := readOffset off s } else .fault .registerPortError

/-- `RegWrite(off, v)` (R54). -/
def regWrite (width : AccessWidth) (off : BitVec 8) (v : Word) (s : State) : Host.Outcome State Fault Refusal :=
  if portAccess width off then .next (writeOffset off v s) else .fault .registerPortError

end Sys2Proof.Machine
end

