-- ==== Sys2Proof/Machine/HostPort.lean ====
section
/-! DEFINITION. The host's turns: register and memory accesses (30_encoding.md R118, 70_reset_and_hazards.md R330), the
pseudo-instructions of the assembler syntax, and the orders of coincident events (60_exceptions.md R294). -/

namespace Sys2Proof.Machine

/-! ## Memory accesses -/

/-- The command a busy engine runs, if its word has a legal OP (60_exceptions.md R290). -/
def runningCommand (s : State) : Option Instr :=
  match s.phase with
  | .idle => none
  | .busy =>
    match decode s.lat.cmd with
    | .ok i => some i
    | .error _ => none

/-- Address a lies in the output region of the running command. DEDUCED (log 14), safe: whether or not its checks pass. -/
def inRunningOutput (s : State) (a : Nat) : Bool :=
  match runningCommand s with
  | some i => decide (inRegion (outputRegion i s.lat) a)
  | none => false

/-- Address a lies in an input or output region of the running command. -/
def inRunningRegions (s : State) (a : Nat) : Bool :=
  match runningCommand s with
  | some i => (regions i s.lat).any fun r => decide (inRegion r a)
  | none => false

/-- Address a is memory with read side effects (20_memory.md R87). -/
def isSideEffect (s : State) (a : Nat) : Bool := s.platform.sideEffects.any fun r => decide (inRegion r a)

/-- Address a is in the register window (10_state.md R33). -/
def inWindow (s : State) (a : Nat) : Bool := decide (inRegion (window s.platform) a)

/-- A host's load of one byte. While BUSY a byte of the output region reads as any value (70_reset_and_hazards.md R330).
A byte that lies in an input region too (of a command that will end in OVERLAP) is such a byte: R330 gives it any value by
one bullet and memory's by another. DESIGN CHOICE (log 14), safe.
An access in the register window is a narrow register access (10_state.md R34; log 12). -/
def memRead (addr : Word) (s : State) : Host.Outcome State Fault Refusal :=
  if inWindow s addr.toNat then .fault .registerPortError
  else if isSideEffect s addr.toNat then .refused .hostAccessToDevice
  else if inRunningOutput s addr.toNat then
    .next { s with hostValue := (Config.freeByte s.draws).setWidth 32, draws := s.draws + 1 }
  else .next { s with hostValue := (readByte s.mem addr.toNat).setWidth 32 }

/-- A host's store of one byte, or any other bus master's. While BUSY a store into a region of the running command is a
race (70_reset_and_hazards.md R330). -/
def memWrite (addr : Word) (b : Byte) (s : State) : Host.Outcome State Fault Refusal :=
  if inWindow s addr.toNat then .fault .registerPortError
  else if isSideEffect s addr.toNat then .refused .hostAccessToDevice
  else if inRunningRegions s addr.toNat then .fault .bufferRace
  else .next { s with mem := writeByte s.mem addr.toNat b }

/-- `fence`: no effect in the model (70_reset_and_hazards.md R331). -/
def fence (s : State) : Host.Outcome State Fault Refusal := .next s

/-- A host's turn. -/
def hostTurn (op : HostOp) (s : State) : Host.Outcome State Fault Refusal :=
  match op with
  | .regRead width off => regRead width off s
  | .regWrite width off v => regWrite width off v s
  | .memRead addr => memRead addr s
  | .memWrite addr b => memWrite addr b s
  | .fence => fence s

/-! ## The assembler's host operations and pseudo-instructions (30_encoding.md R118), as turns -/

/-- `wr <off>, <v32>`. -/
def asmWr (off : BitVec 8) (v : Word) : Turn := .host (.regWrite .word off v)

/-- `rd <off>`. -/
def asmRd (off : BitVec 8) : Turn := .host (.regRead .word off)

/-- `mem <addr> = <bytes>`: byte i is stored at addr + i, modulo 2^32. DESIGN CHOICE (log 17), unsafe: the spec does not say
where the bytes of a host's store go that pass 0xFFFFFFFF (20_memory.md R95 is of the engine's regions), and the model goes
on at address 0. -/
def asmMem : Word → List Byte → List Turn
  | _, [] => []
  | a, b :: bs => .host (.memWrite a b) :: asmMem (a + 1) bs

/-- `cmd <command>`. For a command with an illegal field, which R118 gives no text, it writes that command's own word, every
field in it. DESIGN CHOICE (log 26), safe. -/
def asmCmd (i : Instr) : Turn := asmWr 0x04 (encode i)

/-- The word of bytes 4n to 4n + 3 of a sequence, missing bytes 0. -/
def laneWord (s : List Byte) (n : Nat) : Word :=
  ofLanes (s.getD (4 * n) 0) (s.getD (4 * n + 1) 0) (s.getD (4 * n + 2) 0) (s.getD (4 * n + 3) 0)

/-- `setkey <k0..k15>`. R118 gives it sixteen bytes; of a longer list the first sixteen are taken and in a shorter one the
missing bytes are 0. DESIGN CHOICE (log 26), safe. -/
def asmSetKey (k : List Byte) : List Turn :=
  [asmWr 0x10 (laneWord k 0), asmWr 0x14 (laneWord k 1), asmWr 0x18 (laneWord k 2), asmWr 0x1C (laneWord k 3)]

/-- `setnonce <up to 16 bytes>`; missing bytes are 0. Of a longer list, which R118 does not admit, the first sixteen bytes are
taken. DESIGN CHOICE (log 26), safe. -/
def asmSetNonce (n : List Byte) : List Turn :=
  [asmWr 0x20 (laneWord n 0), asmWr 0x24 (laneWord n 1), asmWr 0x28 (laneWord n 2), asmWr 0x2C (laneWord n 3)]

/-- `setbuf src=<a>,<n> ad=<a>,<n> dst=<a>`; an omitted part writes nothing. -/
def asmSetBuf (src ad : Option (Word × Word)) (dst : Option Word) : List Turn :=
  (match src with | some (a, n) => [asmWr 0x30 a, asmWr 0x34 n] | none => []) ++
  (match ad with | some (a, n) => [asmWr 0x38 a, asmWr 0x3C n] | none => []) ++
  (match dst with | some a => [asmWr 0x40 a] | none => [])

/-- `wait`, in a run where the engine moves after k polls that see BUSY = 1: the next poll sees it 0. The number of
polls is not fixed by the spec (70_reset_and_hazards.md R345; log 21). -/
def asmWait (k : Nat) : List Turn := List.replicate k (asmRd 0x08) ++ [.engine, asmRd 0x08]

/-- `ack`: clears DONE, ERR and CMD_IGNORED. -/
def asmAck : Turn := asmWr 0x08 0x00000016

/-- The command's text: `aes.block`, `ccm.enc n=<N>, m=<M>`, `ccm.dec n=<N>, m=<M>`, `mmo.hash`, `hmac.mmo`.
DESIGN CHOICE (log 26), safe: R118 gives a text to the legal words alone; a command with an illegal field has here the text of
its operation, with the N and M of a CCM command as they stand and every other field left out, so two words may share a
text. -/
def asmText : Instr → String
  | .aesBlock _ => "aes.block"
  | .ccmEnc f => "ccm.enc n=" ++ toString (ccmN f) ++ ", m=" ++ toString (ccmM f)
  | .ccmDec f => "ccm.dec n=" ++ toString (ccmN f) ++ ", m=" ++ toString (ccmM f)
  | .mmoHash _ => "mmo.hash"
  | .hmacMmo _ => "hmac.mmo"

/-! ## Coincident events (60_exceptions.md R294, 70_reset_and_hazards.md R320) -/

/-- Events that coincide. -/
inductive Coincidence where
  /-- Reset with a completion. -/
  | resetWithCompletion
  /-- Reset with a host's operation. -/
  | resetWithAccess (op : HostOp)
  /-- A host's write of STATUS with a completion. -/
  | statusWriteWithCompletion (v : Word)
  /-- A host's write of CMD with a completion. -/
  | cmdWriteWithCompletion (v : Word)
  deriving DecidableEq, Repr

/-- Whether a host's operation is an access to the register port: a register access of any width, or a load or store of a
byte in the register window, which is a narrow one (10_state.md R33, R34; log 12). -/
def HostOp.isRegisterAccess (p : Platform) : HostOp → Bool
  | .regRead _ _ => true
  | .regWrite _ _ _ => true
  | .memRead addr => decide (inRegion (window p) addr.toNat)
  | .memWrite addr _ => decide (inRegion (window p) addr.toNat)
  | .fence => false

/-- The orders in which coincident events may take effect: reset wins, and a register access that coincides with it is
lost; a completion comes before a STATUS write; a CMD write and a completion may go either way. DEDUCED (log 16), safe.
A load or store outside the register window, or a `fence`, that coincides with reset comes before or after it, and is not
lost. DESIGN CHOICE (log 25), safe: R320 speaks of register accesses alone. -/
def Coincidence.orders (p : Platform) : Coincidence → List (List Turn)
  | .resetWithCompletion => [[.reset]]
  | .resetWithAccess op =>
    if op.isRegisterAccess p then [[.reset]] else [[.host op, .reset], [.reset, .host op]]
  | .statusWriteWithCompletion v => [[.engine, asmWr 0x08 v]]
  | .cmdWriteWithCompletion v => [[.engine, asmWr 0x04 v], [asmWr 0x04 v, .engine]]

end Sys2Proof.Machine
end

