-- ==== Sys2Proof/Machine/Agents.lean ====
section
/-! DEFINITION. The turns of the three agents: engine, reset, host (00_scope.md R10). -/

namespace Sys2Proof.Machine

/-- The engine's turn: while BUSY its execute step, which for a reserved OP is only a Validate that raises BAD_OPCODE
(60_exceptions.md R290); while IDLE it does nothing (60_exceptions.md R307; log 19). -/
def engineTurn (s : State) : Host.Outcome State Fault Refusal :=
  match s.phase with
  | .idle => .next s
  | .busy =>
    match decode s.lat.cmd with
    | .ok i => exec i s
    | .error code => .next (raiseError code s)

/-- Every register, every LAT field and the phase to their reset values (70_reset_and_hazards.md R320). -/
def resetRegisters (s : State) : State :=
  { s with
    ctrl := Ctrl.zero, status := Status.zero, outLen := 0, key := Quad.zero, nonce := Quad.zero
    srcAddr := 0, srcLen := 0, adAddr := 0, adLen := 0, dstAddr := 0, phase := .idle, lat := Latch.zero }

/-- Reset's turn, in any state: a running command is aborted, and each byte of its output region becomes a free byte
(70_reset_and_hazards.md R320). Its region is R88's, whether or not its checks would pass, and ends with the address
space. DEDUCED (log 14), safe. -/
def resetTurn (s : State) : State :=
  match runningCommand s with
  | some i => resetRegisters (s.drawRegion (fun a => decide (a < 2 ^ 32)) (outputRegion i s.lat))
  | none => resetRegisters s

/-- A turn of any agent. -/
def takeTurn (t : Turn) (s : State) : Host.Outcome State Fault Refusal :=
  match t with
  | .host op => hostTurn op s
  | .engine => engineTurn s
  | .reset => .next (resetTurn s)

/-- The state in which the engine's next turn runs the command word v: the acceptance of v (10_state.md R65), with the
engine's turn next. It stands for a host's CMD write (log 2). -/
def loadCommand (v : Word) (s : State) : State :=
  accept v { s with schedule := .engine :: s.schedule }

end Sys2Proof.Machine
end

