-- ==== Sys2Proof/Machine/Step.lean ====
section
/-! DEFINITION. One step of the machine: the next turn of the schedule, or the engine's when none is left (10_state.md R67). -/

namespace Sys2Proof.Machine

/-- One step. The engine is never starved: a schedule is finite, and after it only the engine moves, which is the weak
fairness of 10_state.md R67 (log 1, log 15). -/
def step (s : State) : Host.Outcome State Fault Refusal :=
  match s.schedule with
  | [] => engineTurn s
  | t :: rest => takeTurn t { s with schedule := rest }

/-- The state whose next step runs the command word w of `nbits` bits (log 2). -/
def State.withFetchWord (s : State) (nbits w : Nat) : State := loadCommand (tableWord nbits w) s

end Sys2Proof.Machine
end

