-- ==== Sys2Proof/Machine/Work.lean ====
section
/-! DEFINITION. The work of a command as a count of AES128 calls (41_ccm.md R195, 42_mmo_hash.md R236, 43_hmac.md R263,
70_reset_and_hazards.md R346). No step reads it: it is a measure of relative cost, and not timing. -/

namespace Sys2Proof.Machine

/-- ceil(n / 16). -/
def ceil16 (n : Nat) : Nat := (n + 15) / 16

/-- The AES128 calls of a CBC-MAC, for adLen and pLen (R195). -/
def macCalls (adLen pLen : Nat) : Nat :=
  1 + (if adLen > 0 then ceil16 ((adHdr adLen).length + adLen) else 0) + ceil16 pLen

/-- The AES128 calls of one MMO hash of n bytes: floor(n/16) + 1 + e (R232, R236). -/
def mmoCalls (n : Nat) : Nat := n / 16 + 1 + (if n % 16 ≥ 14 then 1 else 0)

/-- The AES128 calls of a command (R346); pLen of a CCM_DEC is SRC_LEN − M. -/
def aesCalls (i : Instr) (l : Latch) : Nat :=
  match i with
  | .aesBlock _ => 1
  | .ccmEnc _ => macCalls l.adLen.toNat l.srcLen.toNat + (ceil16 l.srcLen.toNat + 1)
  | .ccmDec f =>
    macCalls l.adLen.toNat (l.srcLen.toNat - ccmM f) + (ceil16 (l.srcLen.toNat - ccmM f) + 1)
  | .mmoHash _ => mmoCalls l.srcLen.toNat
  | .hmacMmo _ => mmoCalls (16 + l.srcLen.toNat) + 3

end Sys2Proof.Machine
end

