-- ==== Sys2Proof/Safety.lean ====
section
/-! DEFINITION. What holds of every state a run can reach, in the terms the statements use (10_state.md R41). -/

namespace Sys2Proof.Machine

/-- STATUS is consistent: DONE and ERR are not both 1; an error code means the last completion was an error completion,
so DONE and AUTH_FAIL are 0; ERR means there is an error code (R41). -/
structure Status.Consistent (t : Status) : Prop where
  doneXorErr : ¬ (t.done = true ∧ t.err = true)
  codeMeansError : t.errCode ≠ .noError → t.done = false ∧ t.authFail = false
  errHasCode : t.err = true → t.errCode ≠ .noError

/-- While the phase is BUSY, DONE, ERR, AUTH_FAIL, ERR_CODE and OUT_LEN are 0 (R41, R42). -/
structure State.BusyClear (s : State) : Prop where
  done : s.status.done = false
  err : s.status.err = false
  authFail : s.status.authFail = false
  errCode : s.status.errCode = .noError
  outLen : s.outLen = 0

/-- The invariant of the machine: memory is in its canonical form and inside the address space, STATUS is consistent,
a busy engine reports nothing, and an error leaves OUT_LEN 0 (R41, R42). -/
structure State.Inv (s : State) : Prop where
  memory : s.mem.wf
  status : s.status.Consistent
  busy : s.phase = .busy → s.BusyClear
  errorLength : s.status.errCode ≠ .noError → s.outLen = 0

/-! ## When a command executes normally (60_exceptions.md R286 to R289), said of bytes -/

/-- Stage 2: the lengths R286 lets pass. -/
def LengthLegal (i : Instr) (l : Latch) : Prop :=
  match i with
  | .aesBlock _ => l.srcLen.toNat = 16
  | .ccmEnc f => l.srcLen.toNat < 2 ^ (8 * ccmL f)
  | .ccmDec f => ccmM f ≤ l.srcLen.toNat ∧ l.srcLen.toNat - ccmM f < 2 ^ (8 * ccmL f)
  | .mmoHash _ => True
  | .hmacMmo _ => True

/-- Stage 3: every byte of every region has a 32-bit address. -/
def InAddressSpace (i : Instr) (l : Latch) : Prop := ∀ r ∈ regions i l, ∀ a, inRegion r a → a < 2 ^ 32

/-- Stage 4: the output region shares no byte with an input region. -/
def Apart (i : Instr) (l : Latch) : Prop :=
  ∀ r ∈ inputRegions i l, ∀ a, inRegion r a → ¬ inRegion (outputRegion i l) a

/-- No byte of a region is in the register window or has read side effects (20_memory.md R81, R87). -/
def OrdinaryMemory (i : Instr) (s : State) : Prop :=
  ∀ r ∈ regions i s.lat, ∀ a, inRegion r a →
    ¬ inRegion (window s.platform) a ∧ ∀ d ∈ s.platform.sideEffects, ¬ inRegion d a

/-- BusOK holds of every byte the command reads or writes (60_exceptions.md R289). -/
def BusAdmits (i : Instr) (s : State) : Prop :=
  (∀ r ∈ inputRegions i s.lat, ∀ a, inRegion r a → busOK s.platform a .read = true) ∧
    ∀ a, inRegion (outputRegion i s.lat) a → busOK s.platform a .write = true

/-- The command passes Validate and its regions are ordinary memory. -/
structure Valid (i : Instr) (s : State) : Prop where
  wellFormed : i.WellFormed
  lengths : LengthLegal i s.lat
  space : InAddressSpace i s.lat
  apart : Apart i s.lat
  ordinary : OrdinaryMemory i s

/-! ## How a command ends (60_exceptions.md R291, R292) -/

/-- t is s after a successful completion that wrote `out` at LAT.DST_ADDR: OUT_LEN is the number of bytes written, and
nothing but the output bytes, STATUS, OUT_LEN and the phase changes. -/
structure Completed (s t : State) (out : List Byte) (authFail : Bool) : Prop where
  output : ∀ k, k < out.length → readByte t.mem (s.lat.dstAddr.toNat + k) = out.getD k 0
  elsewhere : ∀ a, a < s.lat.dstAddr.toNat ∨ s.lat.dstAddr.toNat + out.length ≤ a → readByte t.mem a = readByte s.mem a
  outLen : t.outLen.toNat = out.length
  status : t.status =
    { done := true, err := false, authFail := authFail, cmdIgnored := s.status.cmdIgnored, errCode := .noError }
  rest : t = { s with mem := t.mem, outLen := t.outLen, status := t.status, phase := .idle }

/-- t is s after an error completion with a code of Validate: memory and every register but STATUS and OUT_LEN are as
they were. -/
def Failed (s t : State) (code : ErrorCode) : Prop :=
  t = { s with
    outLen := 0
    status := { done := false, err := true, authFail := false, cmdIgnored := s.status.cmdIgnored, errCode := code }
    phase := .idle }

/-- t is s after a BUS_ERROR completion of command i: each output byte with BusOK(y, write) is a free byte (log 6), and
nothing but those bytes, STATUS, OUT_LEN, the phase and the count of draws changes. That an output byte at which a write is
not admitted keeps its value is the model's choice (log 24). -/
structure BusFailed (i : Instr) (s t : State) : Prop where
  drawn : ∀ k, k < outputLength i s.lat → busOK s.platform (s.lat.dstAddr.toNat + k) .write = true →
    readByte t.mem (s.lat.dstAddr.toNat + k) = Config.freeByte (s.draws + k)
  elsewhere : ∀ a, (¬ inRegion (outputRegion i s.lat) a ∨ busOK s.platform a .write = false) →
    readByte t.mem a = readByte s.mem a
  status : t.status =
    { done := false, err := true, authFail := false, cmdIgnored := s.status.cmdIgnored, errCode := .busError }
  rest : t = { s with mem := t.mem, outLen := 0, status := t.status, phase := .idle, draws := s.draws + outputLength i s.lat }

/-! ## Runs -/

/-- The outcome of a step with its next state changed by f. -/
def mapNext (f : State → State) (o : Host.Outcome State Fault Refusal) : Host.Outcome State Fault Refusal :=
  match o with
  | .next s => .next (f s)
  | .fault r => .fault r
  | .refused r => .refused r

/-- A turn that only polls: an aligned 32-bit register read. -/
def isPoll (t : Turn) : Bool :=
  match t with
  | .host (.regRead width off) => portAccess width off
  | .host (.regWrite _ _ _) => false
  | .host (.memRead _) => false
  | .host (.memWrite _ _) => false
  | .host .fence => false
  | .engine => false
  | .reset => false

/-- The host keeps to the rules in its turn: aligned 32-bit register accesses, memory accesses outside the window and
outside memory with side effects, and no store into a running command's regions (10_state.md R34,
70_reset_and_hazards.md R330). -/
def turnIsSafe (t : Turn) (s : State) : Prop :=
  match t with
  | .host (.regRead width off) => portAccess width off = true
  | .host (.regWrite width off _) => portAccess width off = true
  | .host (.memRead addr) => inWindow s addr.toNat = false ∧ isSideEffect s addr.toNat = false
  | .host (.memWrite addr _) =>
    inWindow s addr.toNat = false ∧ isSideEffect s addr.toNat = false ∧ inRunningRegions s addr.toNat = false
  | .host .fence => True
  | .engine => ∀ i, runningCommand s = some i → validate i s.lat = none → platformRefusal s.platform i s.lat = none
  | .reset => True

end Sys2Proof.Machine
end

