-- ==== Sys2Proof/Certificates/Slice0/Obligations.lean ====
section
/-! DEFINITION. The statements for the provers, each with the rules of spec/ it formalises. -/

open Sys2Proof Sys2Proof.Machine

/-! ## The command word -/

/-- 30_encoding.md R117: Decode and Encode are inverse on the legal words, and the encodings. The third and fourth clauses
are the model's choice, its split of decoding (log 9): `decode`, the choice of the command by OP, and the encoding are
inverse on every word with a legal OP, so no bit of a word is dropped. -/
def Obligations.EncodeAndDecodeAreInverse : Prop :=
  (∀ i : Instr, i.WellFormed → decodeLegal (encode i) = .ok i) ∧
  (∀ v i, decodeLegal v = .ok i → encode i = v) ∧
  (∀ i, decode (encode i) = .ok i) ∧
  (∀ v i, decode v = .ok i → encode i = v) ∧
  encode (.aesBlock ⟨0, 0, 0⟩) = 0x00000001 ∧ encode (.mmoHash ⟨0, 0, 0⟩) = 0x00000004 ∧
  encode (.hmacMmo ⟨0, 0, 0⟩) = 0x00000005 ∧
  ∀ (n : BitVec 4) (m : BitVec 5),
    encode (.ccmEnc ⟨n, m, 0⟩) = BitVec.ofNat 32 ((m.toNat <<< 8) ||| (n.toNat <<< 4) ||| 0x2) ∧
    encode (.ccmDec ⟨n, m, 0⟩) = BitVec.ofNat 32 ((m.toNat <<< 8) ||| (n.toNat <<< 4) ||| 0x3)

/-- 30_encoding.md R114: the legal words, command by command. -/
def Obligations.LegalWordsAreExactly : Prop :=
  ∀ v : Word,
    ((∃ f, decodeLegal v = .ok (.aesBlock f)) ↔ v = 0x00000001) ∧
    ((∃ f, decodeLegal v = .ok (.mmoHash f)) ↔ v = 0x00000004) ∧
    ((∃ f, decodeLegal v = .ok (.hmacMmo f)) ↔ v = 0x00000005) ∧
    ((∃ f, decodeLegal v = .ok (.ccmEnc f)) ↔
      ∃ n ∈ [7, 8, 9, 10, 11, 12, 13], ∃ m ∈ [4, 6, 8, 10, 12, 14, 16],
        v = BitVec.ofNat 32 ((m <<< 8) ||| (n <<< 4) ||| 0x2)) ∧
    ((∃ f, decodeLegal v = .ok (.ccmDec f)) ↔
      ∃ n ∈ [7, 8, 9, 10, 11, 12, 13], ∃ m ∈ [4, 6, 8, 10, 12, 14, 16],
        v = BitVec.ofNat 32 ((m <<< 8) ||| (n <<< 4) ||| 0x3))

/-- 30_encoding.md R116: the first failing check decides, in the order OP, RSVD, the zero fields, N, M; a word that
passes them all is its operation with its N and M. -/
def Obligations.DecodeRunsItsChecksInOrder : Prop :=
  ∀ v : Word,
    let op := (v.extractLsb' 0 4).toNat
    let n := (v.extractLsb' 4 4).toNat
    let m := (v.extractLsb' 8 5).toNat
    let rsvd := (v.extractLsb' 13 19).toNat
    (op ∉ [1, 2, 3, 4, 5] → decodeLegal v = .error .badOpcode) ∧
    (op ∈ [1, 2, 3, 4, 5] → rsvd ≠ 0 → decodeLegal v = .error .badField) ∧
    (op ∈ [1, 4, 5] → rsvd = 0 → (n ≠ 0 ∨ m ≠ 0) → decodeLegal v = .error .badField) ∧
    (op = 1 → rsvd = 0 → n = 0 → m = 0 → decodeLegal v = .ok (.aesBlock ⟨0, 0, 0⟩)) ∧
    (op = 4 → rsvd = 0 → n = 0 → m = 0 → decodeLegal v = .ok (.mmoHash ⟨0, 0, 0⟩)) ∧
    (op = 5 → rsvd = 0 → n = 0 → m = 0 → decodeLegal v = .ok (.hmacMmo ⟨0, 0, 0⟩)) ∧
    (op ∈ [2, 3] → rsvd = 0 → (n < 7 ∨ n > 13) → decodeLegal v = .error .badNonceLen) ∧
    (op ∈ [2, 3] → rsvd = 0 → 7 ≤ n → n ≤ 13 → m ∉ [4, 6, 8, 10, 12, 14, 16] → decodeLegal v = .error .badMacLen) ∧
    (op = 2 → rsvd = 0 → 7 ≤ n → n ≤ 13 → m ∈ [4, 6, 8, 10, 12, 14, 16] →
      decodeLegal v = .ok (.ccmEnc ⟨BitVec.ofNat 4 n, BitVec.ofNat 5 m, 0⟩)) ∧
    (op = 3 → rsvd = 0 → 7 ≤ n → n ≤ 13 → m ∈ [4, 6, 8, 10, 12, 14, 16] →
      decodeLegal v = .ok (.ccmDec ⟨BitVec.ofNat 4 n, BitVec.ofNat 5 m, 0⟩))

/-- 95_test_vectors.md section 6.1, 30_encoding.md R111: a few words written out bit by bit. -/
def Obligations.WrittenWordsDecode : Prop :=
  decode 0b00000000000000000000000000000001#32 = .ok (.aesBlock ⟨0, 0, 0⟩) ∧
  decode 0b00000000000000000000010001110010#32 = .ok (.ccmEnc ⟨7, 4, 0⟩) ∧
  decode 0b00000000000000000001000011010011#32 = .ok (.ccmDec ⟨13, 16, 0⟩) ∧
  decode 0b00000000000000000000000000000100#32 = .ok (.mmoHash ⟨0, 0, 0⟩) ∧
  decode 0b00000000000000000000000000000101#32 = .ok (.hmacMmo ⟨0, 0, 0⟩) ∧
  decode 0b00000000000000000010000000000110#32 = .error .badOpcode

/-! ## A step runs the decoded command -/

/-- 60_exceptions.md R290, 10_state.md R67: while BUSY the engine's turn, taken from the schedule or because nothing else
is left, is the execute step of the command LAT.CMD names; a reserved OP ends in BAD_OPCODE. The schedule is the
model's (log 1). -/
def Obligations.StepRunsTheLatchedCommand : Prop :=
  ∀ (s : State) (rest : List Turn), s.phase = .busy →
    (s.schedule = .engine :: rest ∨ s.schedule = [] ∧ rest = []) →
    (∀ i, decode s.lat.cmd = .ok i → step s = exec i { s with schedule := rest }) ∧
    (∀ e, decode s.lat.cmd = .error e →
      ∃ t, step s = .next t ∧ Failed { s with schedule := rest } t .badOpcode)

/-- 30_encoding.md R115: every word is accepted; an illegal one then completes with its error, and changes nothing but
STATUS, OUT_LEN and the latch. -/
def Obligations.IllegalWordIsAcceptedThenFails : Prop :=
  ∀ (s : State) (v : Word) (e : ErrorCode) (rest : List Turn), s.phase = .idle →
    s.schedule = asmWr 0x04 v :: .engine :: rest → decodeLegal v = .error e →
    ∃ t, Sys2Proof.core.run 2 s = .next t ∧
      Failed { s with schedule := rest, lat := latchOf v s } t e

/-! ## The commands: results, completion and frame -/

/-- 40_aes_core.md R170: AES_BLOCK on every state in which it executes normally. -/
def Obligations.AesBlockEncryptsTheBlock : Prop :=
  ∀ (f : Fields) (s : State), s.mem.wf → Valid (.aesBlock f) s → BusAdmits (.aesBlock f) s →
    ∃ t, exec (.aesBlock f) s = .next t ∧ t.outLen = 16 ∧
      Completed s t (aes128 s.lat.key.bytes (readBytes s.mem s.lat.srcAddr.toNat 16)) false

/-- 41_ccm.md R197, R192: CCM_ENC writes C || U. -/
def Obligations.CcmEncWritesCiphertextAndTag : Prop :=
  ∀ (f : Fields) (s : State), s.mem.wf → Valid (.ccmEnc f) s → BusAdmits (.ccmEnc f) s →
    ∃ t, exec (.ccmEnc f) s = .next t ∧ t.outLen.toNat = s.lat.srcLen.toNat + f.mlen.toNat ∧
      Completed s t
        (ccmEnc s.lat.key.bytes (s.lat.nonce.bytes.take f.nlen.toNat)
          (readBytes s.mem s.lat.adAddr.toNat s.lat.adLen.toNat)
          (readBytes s.mem s.lat.srcAddr.toNat s.lat.srcLen.toNat) f.mlen.toNat) false

/-- 41_ccm.md R198 to R200: CCM_DEC writes the payload when the tag verifies or RELEASE_UNAUTH was latched, and zeros
otherwise; AUTH_FAIL says which, and a failed tag is a successful completion. -/
def Obligations.CcmDecReleasesOrWithholdsThePayload : Prop :=
  ∀ (f : Fields) (s : State), s.mem.wf → Valid (.ccmDec f) s → BusAdmits (.ccmDec f) s →
    ∃ t, exec (.ccmDec f) s = .next t ∧ t.outLen.toNat = s.lat.srcLen.toNat - f.mlen.toNat ∧
      ∀ p ok, ccmDec s.lat.key.bytes (s.lat.nonce.bytes.take f.nlen.toNat)
          (readBytes s.mem s.lat.adAddr.toNat s.lat.adLen.toNat)
          (readBytes s.mem s.lat.srcAddr.toNat s.lat.srcLen.toNat) f.mlen.toNat = (p, ok) →
        (ok = true → Completed s t p false) ∧
        (ok = false → s.lat.releaseUnauth = true → Completed s t p true) ∧
        (ok = false → s.lat.releaseUnauth = false →
          Completed s t (zeros (s.lat.srcLen.toNat - f.mlen.toNat)) true)

/-- 42_mmo_hash.md R240: MMO_HASH of every message length; `MmoHashChainsTheBlocks` says what mmoHash is. -/
def Obligations.MmoHashWritesTheDigest : Prop :=
  ∀ (f : Fields) (s : State), s.mem.wf → Valid (.mmoHash f) s → BusAdmits (.mmoHash f) s →
    ∃ t, exec (.mmoHash f) s = .next t ∧ t.outLen = 16 ∧
      Completed s t (mmoHash (readBytes s.mem s.lat.srcAddr.toNat s.lat.srcLen.toNat)) false

/-- 43_hmac.md R265, R262: HMAC_MMO is MMOHash(K2 || MMOHash(K1 || X)). -/
def Obligations.HmacMmoWritesTheDigest : Prop :=
  ∀ (f : Fields) (s : State), s.mem.wf → Valid (.hmacMmo f) s → BusAdmits (.hmacMmo f) s →
    ∃ t, exec (.hmacMmo f) s = .next t ∧ t.outLen = 16 ∧
      Completed s t
        (mmoHash (xorBytes s.lat.key.bytes (rep 16 0x5C) ++
          mmoHash (xorBytes s.lat.key.bytes (rep 16 0x36) ++
            readBytes s.mem s.lat.srcAddr.toNat s.lat.srcLen.toNat))) false

/-- 60_exceptions.md R297, R293, 10_state.md R60: the frame of every command, however it ends: only STATUS, OUT_LEN, the
phase, bytes of its output region and the model's count of draws (log 6) change; CMD_IGNORED does not. -/
def Obligations.CommandChangesOnlyItsOutputAndStatus : Prop :=
  ∀ (i : Instr) (s t : State), s.mem.wf → exec i s = .next t →
    t = { s with status := t.status, outLen := t.outLen, phase := .idle, mem := t.mem, draws := t.draws } ∧
    t.status.cmdIgnored = s.status.cmdIgnored ∧
    ∀ a, ¬ inRegion (outputRegion i s.lat) a → readByte t.mem a = readByte s.mem a

/-! ## Errors (60_exceptions.md R282, R286 to R289, R294) -/

/-- R282, R286 stage 1: an illegal field, command by command, whatever the lengths and addresses. -/
def Obligations.IllegalFieldsFailFirst : Prop :=
  ∀ (f : Fields) (s : State),
    (¬ f.Zero → ∀ i ∈ [Instr.aesBlock f, Instr.mmoHash f, Instr.hmacMmo f],
      ∃ t, exec i s = .next t ∧ Failed s t .badField) ∧
    (∀ i ∈ [Instr.ccmEnc f, Instr.ccmDec f],
      (f.rsvd ≠ 0 → ∃ t, exec i s = .next t ∧ Failed s t .badField) ∧
      (f.rsvd = 0 → ¬ f.LegalNonce → ∃ t, exec i s = .next t ∧ Failed s t .badNonceLen) ∧
      (f.rsvd = 0 → f.LegalNonce → ¬ f.LegalMac → ∃ t, exec i s = .next t ∧ Failed s t .badMacLen))

/-- R282, R286 stage 2: a legal command word with a wrong length, whatever the addresses. -/
def Obligations.WrongLengthFailsNext : Prop :=
  ∀ (f : Fields) (s : State),
    (f.Zero → s.lat.srcLen.toNat ≠ 16 → ∃ t, exec (.aesBlock f) s = .next t ∧ Failed s t .badLength) ∧
    (f.LegalCcm → 2 ^ (8 * (15 - f.nlen.toNat)) ≤ s.lat.srcLen.toNat →
      ∃ t, exec (.ccmEnc f) s = .next t ∧ Failed s t .badLength) ∧
    (f.LegalCcm →
      (s.lat.srcLen.toNat < f.mlen.toNat ∨
        2 ^ (8 * (15 - f.nlen.toNat)) ≤ s.lat.srcLen.toNat - f.mlen.toNat) →
      ∃ t, exec (.ccmDec f) s = .next t ∧ Failed s t .badLength)

/-- R286 stage 3, R287: a region with a byte past 0xFFFFFFFF. The length 2^32 at address 0, on which R287's formula and its
last sentence disagree (log 23), is not among these. -/
def Obligations.WrappingRegionFailsNext : Prop :=
  ∀ (i : Instr) (s : State), i.WellFormed → LengthLegal i s.lat →
    (∃ r ∈ regions i s.lat, r.len > 0 ∧ r.base + r.len > 2 ^ 32) →
    ∃ t, exec i s = .next t ∧ Failed s t .addrRange

/-- R286 stage 4, R288: an output region that shares a byte with an input region. A CCM_ENC output of 2^32 bytes at address 0
is among these: that it passes stage 3 is the model's choice (log 23). -/
def Obligations.SharedByteFailsNext : Prop :=
  ∀ (i : Instr) (s : State), i.WellFormed → LengthLegal i s.lat → InAddressSpace i s.lat →
    (∃ r ∈ inputRegions i s.lat, ∃ a, inRegion r a ∧ inRegion (outputRegion i s.lat) a) →
    ∃ t, exec i s = .next t ∧ Failed s t .overlap

/-- R289: a bus error ends a valid command with BUS_ERROR, exactly when BusOK fails on some byte of a region. The free
bytes and their count are the model's (log 6), and that an output byte at which a write is not admitted keeps its value is its
choice (log 24). -/
def Obligations.BusErrorEndsAValidCommand : Prop :=
  ∀ (i : Instr) (s : State), s.mem.wf → Valid i s →
    (¬ BusAdmits i s → ∃ t, exec i s = .next t ∧ BusFailed i s t) ∧
    (BusAdmits i s → ∃ t, exec i s = .next t ∧ t.status.done = true ∧ t.status.errCode = .noError)

/-- 20_memory.md R81, R87: a command that passes Validate with a region in the register window, or in memory with read
side effects, is refused. That the refusal comes after Validate is the model's choice (log 10, log 11). -/
def Obligations.RegionOutsideOrdinaryMemoryIsRefused : Prop :=
  ∀ (i : Instr) (s : State), i.WellFormed → LengthLegal i s.lat → InAddressSpace i s.lat → Apart i s.lat →
    ((∃ r ∈ regions i s.lat, ∃ a, inRegion r a ∧ inRegion (window s.platform) a) →
      exec i s = .refused .regionInRegisterWindow) ∧
    ((∀ r ∈ regions i s.lat, ∀ a, inRegion r a → ¬ inRegion (window s.platform) a) →
      (∃ r ∈ regions i s.lat, ∃ a, inRegion r a ∧ ∃ d ∈ s.platform.sideEffects, inRegion d a) →
      exec i s = .refused .regionWithSideEffects)

/-- 60_exceptions.md R293: an error completion with a code 1 to 7 leaves memory and every register but STATUS and OUT_LEN
as they were; one with BUS_ERROR may also have changed bytes of the output region. What those bytes are is the model's: free
bytes with a count of draws (log 6), and the value it held where a write is not admitted (log 24). -/
def Obligations.ErrorsArePrecise : Prop :=
  ∀ (s t : State), s.mem.wf → s.phase = .busy → engineTurn s = .next t → t.status.err = true →
    (t.status.errCode ≠ .busError → Failed s t t.status.errCode) ∧
    (t.status.errCode = .busError → ∃ i, decode s.lat.cmd = .ok i ∧ BusFailed i s t)

/-- 60_exceptions.md R281, R290: the execute step of a busy engine never faults; unless a region is refused it ends in
exactly one completion, DONE or ERR, and the phase is IDLE. -/
def Obligations.ExecuteStepEndsInExactlyOneCompletion : Prop :=
  ∀ s : State, s.phase = .busy →
    (turnIsSafe .engine s → ∃ t, engineTurn s = .next t) ∧
    (∀ r, engineTurn s ≠ .fault r) ∧
    (∀ t, engineTurn s = .next t → t.phase = .idle ∧ t.status.done = !t.status.err ∧
      (t.status.err = true ↔ t.status.errCode ≠ .noError) ∧ (t.status.err = true → t.outLen = 0))

/-! ## Invariants and rules of the whole machine -/

/-- 10_state.md R41, R42 and the canonical form of memory: every step, of any agent, keeps the invariant. -/
def Obligations.StepKeepsTheInvariant : Prop :=
  ∀ s t : State, s.Inv → step s = .next t → t.Inv

/-- The invariant holds right after reset (10_state.md R70). -/
def Obligations.ResetMeetsTheInvariant : Prop := State.reset.Inv

/-- 10_state.md R32: no register write, nor any other host operation, moves the phase from BUSY to IDLE; only the
engine's completion or reset does. -/
def Obligations.OnlyCompletionOrResetEndsBusy : Prop :=
  ∀ s t : State, s.phase = .busy → step s = .next t → t.phase = .idle →
    s.schedule = [] ∨ ∃ rest, s.schedule = .engine :: rest ∨ s.schedule = .reset :: rest

/-- 10_state.md R62, R55, R61: a command's result depends on the latch, on memory and on the platform (and on the free
bytes still to come, whose form is the model's, log 6); not on the registers, the flags or earlier commands. -/
def Obligations.ResultIgnoresHistoryAndFlags : Prop :=
  ∀ (i : Instr) (s s' t : State), s.lat = s'.lat → s.mem = s'.mem → s.platform = s'.platform → s.draws = s'.draws →
    exec i s = .next t →
    ∃ t', exec i s' = .next t' ∧ t'.mem = t.mem ∧ t'.outLen = t.outLen ∧
      t'.status = { t.status with cmdIgnored := s'.status.cmdIgnored }

/-- 10_state.md R43, R60: a host never sees the key. Two states that differ in the key registers and the latched key
alone take the same host turn to states that differ in them alone, and stop alike. -/
def Obligations.HostNeverSeesTheKey : Prop :=
  ∀ (s : State) (k k' : Quad) (op : HostOp) (rest : List Turn), s.schedule = .host op :: rest →
    let s' := { s with key := k, lat := { s.lat with key := k' } }
    (∀ t, step s = .next t → ∃ q q', step s' = .next { t with key := q, lat := { t.lat with key := q' } }) ∧
    (∀ r, step s = .fault r → step s' = .fault r) ∧
    (∀ r, step s = .refused r → step s' = .refused r)

/-- 10_state.md R51: a register write while BUSY, other than to CMD and STATUS, has no effect on the running command:
before or after the engine's turn, it leads to the same state. -/
def Obligations.RegisterWriteDoesNotReachTheRunningCommand : Prop :=
  ∀ (s : State) (off : BitVec 8) (v : Word) (rest : List Turn), s.phase = .busy →
    off.toNat % 4 = 0 → off ≠ 0x04 → off ≠ 0x08 →
    Sys2Proof.core.run 2 { s with schedule := asmWr off v :: .engine :: rest } =
      Sys2Proof.core.run 2 { s with schedule := .engine :: asmWr off v :: rest }

/-- 10_state.md R67, 30_encoding.md R118 (`wait`): a busy engine completes after any finite number of polls. That the
schedule is finite is the model's form of weak fairness (log 15). -/
def Obligations.PollingHostSeesTheCommandEnd : Prop :=
  ∀ s : State, s.phase = .busy → (∀ t ∈ s.schedule, isPoll t = true) → turnIsSafe .engine s →
    ∃ t, Sys2Proof.core.run (s.schedule.length + 1) s = .next t ∧ t.phase = .idle ∧
      (statusWord t.phase t.status).getLsbD 0 = false ∧ t.status.done = !t.status.err

/-- 60_exceptions.md R307, 70_reset_and_hazards.md R321: an idle engine takes no step of its own and holds its
registers. -/
def Obligations.IdleEngineHoldsItsState : Prop :=
  ∀ (s : State) (rest : List Turn), s.phase = .idle →
    (s.schedule = [] → step s = .next s) ∧
    (s.schedule = .engine :: rest → step s = .next { s with schedule := rest })

/-! ## The register port (10_state.md) -/

/-- R35 to R53: what an aligned 32-bit read returns at every offset, and that it changes nothing else. -/
def Obligations.RegisterReadReturnsItsValue : Prop :=
  ∀ (s : State) (off : BitVec 8) (rest : List Turn), off.toNat % 4 = 0 → s.schedule = asmRd off :: rest →
    ∃ v, step s = .next { s with schedule := rest, hostValue := v } ∧
      (off = 0x00 → v.toNat = s.ctrl.irqEn.toNat + 2 * s.ctrl.releaseUnauth.toNat) ∧
      (off = 0x08 → v = statusWord s.phase s.status) ∧
      (off = 0x0C → v = s.outLen) ∧
      (off ∈ [0x04#8, 0x10#8, 0x14#8, 0x18#8, 0x1C#8] → v = 0) ∧
      (off = 0x20 → v = s.nonce.w0) ∧ (off = 0x24 → v = s.nonce.w1) ∧
      (off = 0x28 → v = s.nonce.w2) ∧ (off = 0x2C → v = s.nonce.w3) ∧
      (off = 0x30 → v = s.srcAddr) ∧ (off = 0x34 → v = s.srcLen) ∧
      (off = 0x38 → v = s.adAddr) ∧ (off = 0x3C → v = s.adLen) ∧ (off = 0x40 → v = s.dstAddr) ∧
      (0x44 ≤ off.toNat → v = 0)

/-- R39, R32, 60_exceptions.md R282: the bits of STATUS as it reads. -/
def Obligations.StatusReadsItsFields : Prop :=
  ∀ (p : Phase) (t : Status),
    ((statusWord p t).getLsbD 0 = true ↔ p = .busy) ∧
    (statusWord p t).getLsbD 1 = t.done ∧ (statusWord p t).getLsbD 2 = t.err ∧
    (statusWord p t).getLsbD 3 = t.authFail ∧ (statusWord p t).getLsbD 4 = t.cmdIgnored ∧
    (statusWord p t).extractLsb' 5 3 = 0 ∧ (statusWord p t).extractLsb' 12 20 = 0 ∧
    [(.noError, 0), (.badOpcode, 1), (.badField, 2), (.badNonceLen, 3), (.badMacLen, 4), (.badLength, 5),
      (.addrRange, 6), (.overlap, 7), (.busError, 8)].lookup t.errCode =
        some ((statusWord p t).extractLsb' 8 4).toNat

/-- R54, R37, R35, R42: an aligned 32-bit write at every offset but CMD and STATUS. -/
def Obligations.RegisterWriteTakesItsValue : Prop :=
  ∀ (s : State) (off : BitVec 8) (v : Word) (rest : List Turn), off.toNat % 4 = 0 →
    s.schedule = asmWr off v :: rest →
    (off = 0x00 → step s = .next { s with
      schedule := rest, ctrl := { irqEn := v.getLsbD 0, releaseUnauth := v.getLsbD 1 } }) ∧
    (off = 0x0C ∨ 0x44 ≤ off.toNat → step s = .next { s with schedule := rest }) ∧
    (off = 0x10 → step s = .next { s with schedule := rest, key := { s.key with w0 := v } }) ∧
    (off = 0x14 → step s = .next { s with schedule := rest, key := { s.key with w1 := v } }) ∧
    (off = 0x18 → step s = .next { s with schedule := rest, key := { s.key with w2 := v } }) ∧
    (off = 0x1C → step s = .next { s with schedule := rest, key := { s.key with w3 := v } }) ∧
    (off = 0x20 → step s = .next { s with schedule := rest, nonce := { s.nonce with w0 := v } }) ∧
    (off = 0x24 → step s = .next { s with schedule := rest, nonce := { s.nonce with w1 := v } }) ∧
    (off = 0x28 → step s = .next { s with schedule := rest, nonce := { s.nonce with w2 := v } }) ∧
    (off = 0x2C → step s = .next { s with schedule := rest, nonce := { s.nonce with w3 := v } }) ∧
    (off = 0x30 → step s = .next { s with schedule := rest, srcAddr := v }) ∧
    (off = 0x34 → step s = .next { s with schedule := rest, srcLen := v }) ∧
    (off = 0x38 → step s = .next { s with schedule := rest, adAddr := v }) ∧
    (off = 0x3C → step s = .next { s with schedule := rest, adLen := v }) ∧
    (off = 0x40 → step s = .next { s with schedule := rest, dstAddr := v })

/-- R34: a narrow or misaligned register access is a fault of the host's turn. -/
def Obligations.NarrowOrMisalignedAccessFaults : Prop :=
  ∀ (s : State) (w : AccessWidth) (off : BitVec 8) (v : Word) (rest : List Turn), (w ≠ .word ∨ off.toNat % 4 ≠ 0) →
    (s.schedule = .host (.regRead w off) :: rest → step s = .fault .registerPortError) ∧
    (s.schedule = .host (.regWrite w off v) :: rest → step s = .fault .registerPortError)

/-- R40: a write of v to STATUS clears the bits of v among 1, 2 and 4, and does nothing else. -/
def Obligations.StatusWriteClearsExactlyItsBits : Prop :=
  ∀ (s : State) (v : Word) (rest : List Turn), s.schedule = asmWr 0x08 v :: rest →
    ∃ t, step s = .next t ∧
      statusWord t.phase t.status = statusWord s.phase s.status &&& ~~~ (v &&& 0x16) ∧
      t = { s with schedule := rest, status := t.status }

/-- R65, R60: Accept(v), on a CMD write while IDLE, whatever v and whatever STATUS holds. -/
def Obligations.CmdWriteWhileIdleIsAccepted : Prop :=
  ∀ (s : State) (v : Word) (rest : List Turn), s.phase = .idle → s.schedule = asmWr 0x04 v :: rest →
    step s = .next { s with
      schedule := rest
      lat := { cmd := v, key := s.key, nonce := s.nonce, srcAddr := s.srcAddr, srcLen := s.srcLen,
               adAddr := s.adAddr, adLen := s.adLen, dstAddr := s.dstAddr, releaseUnauth := s.ctrl.releaseUnauth }
      status := { done := false, err := false, authFail := false, cmdIgnored := s.status.cmdIgnored,
                  errCode := .noError }
      outLen := 0
      phase := .busy }

/-- R66: IgnoreCmd(), on a CMD write while BUSY. -/
def Obligations.CmdWriteWhileBusyIsIgnored : Prop :=
  ∀ (s : State) (v : Word) (rest : List Turn), s.phase = .busy → s.schedule = asmWr 0x04 v :: rest →
    step s = .next { s with schedule := rest, status := { s.status with cmdIgnored := true } }

/-- R44, 20_memory.md R83, 30_encoding.md R118: `setkey` puts the sixteen bytes in the key registers in order, byte 0 in
bits 7:0 of KEY0; `setnonce` the same with missing bytes 0 (R45). -/
def Obligations.SetKeyAndSetNonceFillTheLanes : Prop :=
  ∀ (s : State) (rest : List Turn),
    (∀ k : List Byte, k.length = 16 → s.schedule = asmSetKey k ++ rest →
      ∃ t, Sys2Proof.core.run 4 s = .next t ∧ t.key.bytes = k ∧ t.key.w0.extractLsb' 0 8 = k.getD 0 0 ∧
        t = { s with schedule := rest, key := t.key }) ∧
    (∀ n : List Byte, n.length ≤ 16 → s.schedule = asmSetNonce n ++ rest →
      ∃ t, Sys2Proof.core.run 4 s = .next t ∧ t.nonce.bytes = n ++ zeros (16 - n.length) ∧
        t = { s with schedule := rest, nonce := t.nonce })

/-- 60_exceptions.md R295: irq in terms of CTRL and STATUS as they read. -/
def Obligations.IrqIsEnableAndDoneOrErr : Prop :=
  ∀ s : State, irq s = (s.ctrl.word.getLsbD 0 &&
    ((statusWord s.phase s.status).getLsbD 1 || (statusWord s.phase s.status).getLsbD 2))

/-! ## Reset, memory and hazards -/

/-- 70_reset_and_hazards.md R320, R322, 10_state.md R70: reset in any state. Memory changes at most in the output region
of an aborted command: its free bytes (log 6), and which region that is for a command whose checks would fail (log 14), are the
model's choice. The platform and the turns to come are not the engine's. -/
def Obligations.ResetClearsTheEngine : Prop :=
  ∀ (s : State) (rest : List Turn), s.mem.wf → s.schedule = .reset :: rest →
    ∃ t, step s = .next t ∧ irq t = false ∧
      t = { State.resetOn s.platform rest with mem := t.mem, hostValue := s.hostValue, draws := t.draws } ∧
      (s.phase = .idle → t.mem = s.mem) ∧
      ∀ a, (∀ i, decode s.lat.cmd = .ok i → ¬ inRegion (outputRegion i s.lat) a) →
        readByte t.mem a = readByte s.mem a

/-- 70_reset_and_hazards.md R330, 20_memory.md R88: accesses of other agents to a running command's regions. It is the model's
choice that these are the regions of the command LAT.CMD's OP names, whether or not its checks would pass, with no output
region for a CCM_DEC with SRC_LEN below M, and that a byte in both an input and the output region reads as a free byte
(log 14); the free byte's form is its own too (log 6). -/
def Obligations.AccessesToRunningBuffers : Prop :=
  ∀ (s : State) (i : Instr) (a : Word) (rest : List Turn), s.phase = .busy → decode s.lat.cmd = .ok i →
    ¬ inRegion (window s.platform) a.toNat → (∀ d ∈ s.platform.sideEffects, ¬ inRegion d a.toNat) →
    (∀ b, (∃ r ∈ regions i s.lat, inRegion r a.toNat) → s.schedule = .host (.memWrite a b) :: rest →
      step s = .fault .bufferRace) ∧
    (inRegion (outputRegion i s.lat) a.toNat → s.schedule = .host (.memRead a) :: rest →
      step s = .next { s with
        schedule := rest, hostValue := (Config.freeByte s.draws).setWidth 32, draws := s.draws + 1 }) ∧
    (¬ inRegion (outputRegion i s.lat) a.toNat → s.schedule = .host (.memRead a) :: rest →
      step s = .next { s with schedule := rest, hostValue := (readByte s.mem a.toNat).setWidth 32 })

/-- 20_memory.md R91, 70_reset_and_hazards.md R331, R330: memory is sequentially consistent, and `fence` has no effect: a byte
a host stores is what the next load returns, and every other byte is as before, in either phase, at every address of
ordinary memory outside the regions of a running command (whose regions those are is the model's choice, log 14). -/
def Obligations.StoreFenceLoadOutsideRunningBuffers : Prop :=
  ∀ (s : State) (a : Word) (b : Byte) (rest : List Turn), s.mem.wf →
    (s.phase = .busy → ∀ i, decode s.lat.cmd = .ok i → ∀ r ∈ regions i s.lat, ¬ inRegion r a.toNat) →
    ¬ inRegion (window s.platform) a.toNat → (∀ d ∈ s.platform.sideEffects, ¬ inRegion d a.toNat) →
    s.schedule = .host (.memWrite a b) :: .host .fence :: .host (.memRead a) :: rest →
    ∃ t, Sys2Proof.core.run 3 s = .next t ∧ t.hostValue = b.setWidth 32 ∧
      (∀ x, x ≠ a.toNat → readByte t.mem x = readByte s.mem x) ∧
      t = { s with schedule := rest, hostValue := t.hostValue, mem := t.mem }

/-- 60_exceptions.md R294: a STATUS write that coincides with a completion comes after it, so DONE and ERR may be cleared
at once and irq stays low. -/
def Obligations.CoincidentStatusWriteClearsTheCompletion : Prop :=
  ∀ (s t : State) (v : Word) (o rest : List Turn), s.phase = .busy →
    o ∈ (Coincidence.statusWriteWithCompletion v).orders s.platform → s.schedule = o ++ rest →
    v.getLsbD 1 = true → v.getLsbD 2 = true → Sys2Proof.core.run 2 s = .next t →
    t.phase = .idle ∧ t.status.done = false ∧ t.status.err = false ∧ irq t = false

/-- 60_exceptions.md R294: a CMD write that coincides with a completion is accepted after it or ignored before it; both
are admitted, and nothing else is. -/
def Obligations.CoincidentCmdWriteGoesEitherWay : Prop :=
  ∀ (s : State) (v : Word) (rest : List Turn), s.phase = .busy → turnIsSafe .engine s →
    (∀ o ∈ (Coincidence.cmdWriteWithCompletion v).orders s.platform, ∃ t,
      Sys2Proof.core.run 2 { s with schedule := o ++ rest } = .next t ∧
        ((t.phase = .busy ∧ t.lat = latchOf v s ∧ t.status.cmdIgnored = s.status.cmdIgnored) ∨
          (t.phase = .idle ∧ t.lat = s.lat ∧ t.status.cmdIgnored = true))) ∧
    (∃ o ∈ (Coincidence.cmdWriteWithCompletion v).orders s.platform, ∃ t,
      Sys2Proof.core.run 2 { s with schedule := o ++ rest } = .next t ∧ t.phase = .busy) ∧
    (∃ o ∈ (Coincidence.cmdWriteWithCompletion v).orders s.platform, ∃ t,
      Sys2Proof.core.run 2 { s with schedule := o ++ rest } = .next t ∧ t.phase = .idle)

/-! ## The transforms -/

/-- 40_aes_core.md R143: the S-box table is the affine map of the inverse, at all 256 entries. -/
def Obligations.SboxIsTheAffineMapOfTheInverse : Prop :=
  ∀ b : Byte, ∃ c : Byte, IsGfInv b c ∧ sbox b = sboxAffine c

/-- 40_aes_core.md R149, R150: the words of the key expansion, and the round keys they make. -/
def Obligations.KeyExpansionFollowsTheRecurrence : Prop :=
  ∀ k : List Byte, k.length = 16 →
    (keyWords k).length = 44 ∧ (roundKeys k).length = 11 ∧ (roundKeys k).getD 0 [] = k ∧
    (∀ i, i < 4 → (keyWords k).getD i [] = (k.drop (4 * i)).take 4) ∧
    (∀ i, 4 ≤ i → i < 44 → i % 4 ≠ 0 →
      (keyWords k).getD i [] = xorBytes ((keyWords k).getD (i - 4) []) ((keyWords k).getD (i - 1) [])) ∧
    (∀ i, 4 ≤ i → i < 44 → i % 4 = 0 → ∀ a0 a1 a2 a3, (keyWords k).getD (i - 1) [] = [a0, a1, a2, a3] →
      (keyWords k).getD i [] = xorBytes ((keyWords k).getD (i - 4) [])
        [sbox a1 ^^^ [0x01#8, 0x02, 0x04, 0x08, 0x10, 0x20, 0x40, 0x80, 0x1B, 0x36].getD (i / 4 - 1) 0,
          sbox a2, sbox a3, sbox a0]) ∧
    (∀ j, j ≤ 10 → (roundKeys k).getD j [] =
      (keyWords k).getD (4 * j) [] ++ (keyWords k).getD (4 * j + 1) [] ++
        (keyWords k).getD (4 * j + 2) [] ++ (keyWords k).getD (4 * j + 3) [])

/-- 41_ccm.md R194: decryption gives back what encryption was given, and the tag verifies. -/
def Obligations.CcmDecryptsWhatItEncrypts : Prop :=
  ∀ (k nonce ad p : List Byte) (m : Nat), k.length = 16 → 7 ≤ nonce.length → nonce.length ≤ 13 →
    m ∈ [4, 6, 8, 10, 12, 14, 16] → ccmDec k nonce ad (ccmEnc k nonce ad p m) m = (p, true)

/-- 41_ccm.md R194, on the engine: a CCM_DEC of a CCM_ENC's output, with the same key, nonce, associated data and tag
length, verifies and writes the payload. -/
def Obligations.EngineDecryptsWhatItEncrypted : Prop :=
  ∀ (f : Fields) (s t u : State), s.mem.wf → Valid (.ccmEnc f) s → BusAdmits (.ccmEnc f) s →
    exec (.ccmEnc f) s = .next t → u.mem = t.mem →
    u.lat.key = s.lat.key → u.lat.nonce = s.lat.nonce → u.lat.adAddr = s.lat.adAddr → u.lat.adLen = s.lat.adLen →
    u.lat.srcAddr = s.lat.dstAddr → u.lat.srcLen = t.outLen →
    Valid (.ccmDec f) u → BusAdmits (.ccmDec f) u →
    ∃ w, exec (.ccmDec f) u = .next w ∧ w.status.authFail = false ∧ w.outLen = s.lat.srcLen ∧
      readBytes w.mem u.lat.dstAddr.toNat s.lat.srcLen.toNat =
        readBytes s.mem s.lat.srcAddr.toNat s.lat.srcLen.toNat

/-- 41_ccm.md R183, R188, R190: no counter overflows its field. That the counter blocks of a command are therefore distinct
blocks, and that none of them is its B0, no rule says: both are read from the rules here (the places of the flags, log 20). -/
def Obligations.CounterBlocksNeverRepeat : Prop :=
  ∀ (nonce : List Byte) (pLen : Nat), 7 ≤ nonce.length → nonce.length ≤ 13 → pLen < 2 ^ (8 * (15 - nonce.length)) →
    ceil16 pLen < 2 ^ (8 * (15 - nonce.length)) ∧
    (∀ i, (counterBlock nonce i).length = 16) ∧
    (∀ i j, i ≤ ceil16 pLen → j ≤ ceil16 pLen → counterBlock nonce i = counterBlock nonce j → i = j) ∧
    (∀ i adLen m, m ∈ [4, 6, 8, 10, 12, 14, 16] → counterBlock nonce i ≠ blockB0 nonce adLen pLen m)

/-- 42_mmo_hash.md R231, R232: the padding. -/
def Obligations.MmoPaddingIsAsTheTableSays : Prop :=
  ∀ x : List Byte,
    (mmoPad x).length = 16 * (x.length / 16 + 1 + if x.length % 16 = 14 ∨ x.length % 16 = 15 then 1 else 0) ∧
    (mmoPad x).take x.length = x ∧ (mmoPad x).getD x.length 0 = 0x80 ∧
    (∀ j, x.length < j → j + 2 < (mmoPad x).length → (mmoPad x).getD j 0 = 0x00) ∧
    (mmoPad x).drop ((mmoPad x).length - 2) = be (8 * x.length % 2 ^ 16) 2

/-- 70_reset_and_hazards.md R346, 41_ccm.md R195, 42_mmo_hash.md R236, 43_hmac.md R263: the AES128 calls of every command are
the blocks it puts through the cipher: for CCM those of the MAC stream, the keystream's and S_0; for the hashes those of the
padded messages. They are also as R346's table counts them. -/
def Obligations.WorkIsTheNumberOfBlocks : Prop :=
  ∀ (f : Fields) (l : Latch) (m : Memory),
    let hdr := (adHdr l.adLen.toNat).length
    let ccmBlocks := fun payload : List Byte =>
      (blocks (ccmFormat (ccmNonce f l) (adBytes l m) payload (ccmM f))).length +
        (keyStreamBlocks l.key.bytes (ccmNonce f l) payload.length).length + 1
    let ccmTable := fun pLen : Nat =>
      (if l.adLen.toNat > 0 then 1 + (hdr + l.adLen.toNat + 15) / 16 else 1) + (2 * ((pLen + 15) / 16) + 1)
    let inner := xorBytes l.key.bytes (rep 16 0x36) ++ srcBytes l m
    let outer := xorBytes l.key.bytes (rep 16 0x5C) ++ mmoHash inner
    aesCalls (.aesBlock f) l = 1 ∧
    (f.LegalNonce →
      aesCalls (.ccmEnc f) l = ccmBlocks (srcBytes l m) ∧ aesCalls (.ccmEnc f) l = ccmTable l.srcLen.toNat ∧
      aesCalls (.ccmDec f) l =
        ccmBlocks (ccmDec l.key.bytes (ccmNonce f l) (adBytes l m) (srcBytes l m) (ccmM f)).1 ∧
      aesCalls (.ccmDec f) l = ccmTable (l.srcLen.toNat - ccmM f)) ∧
    aesCalls (.mmoHash f) l = (blocks (mmoPad (srcBytes l m))).length ∧
    aesCalls (.mmoHash f) l = (mmoPad (srcBytes l m)).length / 16 ∧
    aesCalls (.hmacMmo f) l = (blocks (mmoPad inner)).length + (blocks (mmoPad outer)).length ∧
    aesCalls (.hmacMmo f) l = (mmoPad inner).length / 16 + 3

/-! ## What the pure functions of the statements above compute -/

/-- 40_aes_core.md R141: • is the product of polynomials in its second operand's bits: linear in it, with a • x^(i+1) =
xtime(a • x^i); xtime by the top bit; and the rule's examples. -/
def Obligations.GfProductFollowsItsBits : Prop :=
  (∀ a : Byte, gmul a 0x00 = 0x00 ∧ gmul a 0x01 = a) ∧
  (∀ a b c : Byte, gmul a (b ^^^ c) = gmul a b ^^^ gmul a c) ∧
  (∀ (a : Byte) (i : Nat), i < 7 → gmul a ((0x01 : Byte) <<< (i + 1)) = xtime (gmul a ((0x01 : Byte) <<< i))) ∧
  (∀ a : Byte, xtime a = BitVec.ofNat 8 (if a.toNat < 0x80 then 2 * a.toNat else (2 * a.toNat) ^^^ 0x11B)) ∧
  gmul 0x57 0x83 = 0xC1 ∧ gmul 0x57 0x13 = 0xFE ∧ xtime 0x57 = 0xAE ∧ xtime 0x80 = 0x1B

/-- 40_aes_core.md R145 to R148: what each round transformation puts at each place of the state. -/
def Obligations.RoundStepsActOnEachByte : Prop :=
  ∀ t rk : List Byte, t.length = 16 → rk.length = 16 →
    (subBytes t).length = 16 ∧ (shiftRows t).length = 16 ∧ (mixColumns t).length = 16 ∧ (addRoundKey t rk).length = 16 ∧
    (∀ i, i < 16 → (subBytes t).getD i 0 = sbox (t.getD i 0)) ∧
    (∀ r c, r < 4 → c < 4 → (shiftRows t).getD (r + 4 * c) 0 = t.getD (r + 4 * ((c + r) % 4)) 0) ∧
    shiftRows t = [0, 5, 10, 15, 4, 9, 14, 3, 8, 13, 2, 7, 12, 1, 6, 11].map (t.getD · 0) ∧
    (∀ c a0 a1 a2 a3, c < 4 → (t.drop (4 * c)).take 4 = [a0, a1, a2, a3] →
      ((mixColumns t).drop (4 * c)).take 4 =
        [gmul 0x02 a0 ^^^ gmul 0x03 a1 ^^^ a2 ^^^ a3,
         a0 ^^^ gmul 0x02 a1 ^^^ gmul 0x03 a2 ^^^ a3,
         a0 ^^^ a1 ^^^ gmul 0x02 a2 ^^^ gmul 0x03 a3,
         gmul 0x03 a0 ^^^ a1 ^^^ a2 ^^^ gmul 0x02 a3]) ∧
    (∀ i, i < 16 → (addRoundKey t rk).getD i 0 = t.getD i 0 ^^^ rk.getD i 0)

/-- 40_aes_core.md R157: AES128 is its ten rounds over the round keys, the last without MixColumns; and the rule's example. -/
def Obligations.Aes128RunsTenRounds : Prop :=
  (∀ k b : List Byte, k.length = 16 → b.length = 16 →
    ∃ t : Nat → List Byte, t 0 = xorBytes b ((roundKeys k).getD 0 []) ∧
      (∀ j, 1 ≤ j → j ≤ 9 →
        t j = addRoundKey (mixColumns (shiftRows (subBytes (t (j - 1))))) ((roundKeys k).getD j [])) ∧
      aes128 k b = addRoundKey (shiftRows (subBytes (t 9))) ((roundKeys k).getD 10 []) ∧ (aes128 k b).length = 16) ∧
  aes128 (be 0x2b7e151628aed2a6abf7158809cf4f3c 16) (be 0x3243f6a8885a308d313198a2e0370734 16) =
    be 0x3925841d02dc09fbdc118597196a0b32 16

/-- 41_ccm.md R183 to R186: the MAC input stream, byte by byte: the fields of B0's flags byte, the nonce, the payload's length,
the header and the associated data padded together, and the payload padded. -/
def Obligations.CcmFormatLaysOutTheStream : Prop :=
  ∀ (nonce ad p : List Byte) (m : Nat), 7 ≤ nonce.length → nonce.length ≤ 13 → m ∈ [4, 6, 8, 10, 12, 14, 16] →
    ∃ (flags : Byte) (hdr : List Byte) (z1 z2 : Nat),
      ccmFormat nonce ad p m =
        flags :: nonce ++ be p.length (15 - nonce.length) ++ (hdr ++ ad ++ zeros z1) ++ (p ++ zeros z2) ∧
      flags.getLsbD 7 = false ∧ flags.getLsbD 6 = decide (0 < ad.length) ∧
      (flags.extractLsb' 3 3).toNat = (m - 2) / 2 ∧ (flags.extractLsb' 0 3).toNat = 15 - nonce.length - 1 ∧
      (ad.length = 0 → hdr = []) ∧ (0 < ad.length → ad.length < 0xFF00 → hdr = be ad.length 2) ∧
      (0xFF00 ≤ ad.length → ad.length < 2 ^ 32 → hdr = [0xFF, 0xFE] ++ be ad.length 4) ∧
      z1 < 16 ∧ (hdr ++ ad ++ zeros z1).length % 16 = 0 ∧ z2 < 16 ∧ (p ++ zeros z2).length % 16 = 0

/-- 41_ccm.md R187: the tag is the CBC-MAC of the stream: Y_0 is all zero, Y_(j+1) is AES128(K, Y_j ⊕ X_j) for block X_j of the
stream, and T is the first M bytes of the last Y. -/
def Obligations.CcmMacChainsTheBlocks : Prop :=
  ∀ (k nonce ad p : List Byte) (m : Nat), k.length = 16 → 7 ≤ nonce.length → nonce.length ≤ 13 →
    m ∈ [4, 6, 8, 10, 12, 14, 16] →
    let stream := ccmFormat nonce ad p m
    ∃ y : Nat → List Byte, stream.length % 16 = 0 ∧ 16 ≤ stream.length ∧ y 0 = zeros 16 ∧
      (∀ j, j < stream.length / 16 → y (j + 1) = aes128 k (xorBytes (y j) ((stream.drop (16 * j)).take 16))) ∧
      y 1 = aes128 k (stream.take 16) ∧
      ccmMac k nonce ad p m = (y (stream.length / 16)).take m ∧ (ccmMac k nonce ad p m).length = m

/-- 41_ccm.md R188, R189, R191, R192: CCMEnc byte by byte: payload byte j is XORed with byte j mod 16 of the encrypted counter
block 1 + j div 16, and the tag with that of counter 0. -/
def Obligations.CcmEncryptsByteByByte : Prop :=
  ∀ (k nonce ad p : List Byte) (m : Nat), k.length = 16 → 7 ≤ nonce.length → nonce.length ≤ 13 →
    m ∈ [4, 6, 8, 10, 12, 14, 16] →
    let s := fun i => aes128 k (BitVec.ofNat 8 (15 - nonce.length - 1) :: nonce ++ be i (15 - nonce.length))
    (ccmEnc k nonce ad p m).length = p.length + m ∧
    (∀ j, j < p.length → (ccmEnc k nonce ad p m).getD j 0 = p.getD j 0 ^^^ (s (1 + j / 16)).getD (j % 16) 0) ∧
    (∀ j, j < m → (ccmEnc k nonce ad p m).getD (p.length + j) 0 = (ccmMac k nonce ad p m).getD j 0 ^^^ (s 0).getD j 0)

/-- 41_ccm.md R193: CCMDec byte by byte: the payload, and a tag that verifies exactly when all its M bytes agree. -/
def Obligations.CcmDecryptsByteByByte : Prop :=
  ∀ (k nonce ad input : List Byte) (m : Nat), k.length = 16 → 7 ≤ nonce.length → nonce.length ≤ 13 →
    m ∈ [4, 6, 8, 10, 12, 14, 16] → m ≤ input.length →
    let s := fun i => aes128 k (BitVec.ofNat 8 (15 - nonce.length - 1) :: nonce ++ be i (15 - nonce.length))
    let pLen := input.length - m
    ∃ (p : List Byte) (ok : Bool), ccmDec k nonce ad input m = (p, ok) ∧ p.length = pLen ∧
      (∀ j, j < pLen → p.getD j 0 = input.getD j 0 ^^^ (s (1 + j / 16)).getD (j % 16) 0) ∧
      (ok = true ↔
        ∀ j, j < m → input.getD (pLen + j) 0 = (ccmMac k nonce ad p m).getD j 0 ^^^ (s 0).getD j 0)

/-- 42_mmo_hash.md R234, R235, with 90_conflicts.md C1: H_0 is all zero, and H_(j+1) is AES128(H_j, B_j) ⊕ B_j for block B_j of
the padded message; the digest is the last H. -/
def Obligations.MmoHashChainsTheBlocks : Prop :=
  ∀ x : List Byte,
    let block := fun j => ((mmoPad x).drop (16 * j)).take 16
    ∃ h : Nat → List Byte, (mmoPad x).length % 16 = 0 ∧ h 0 = zeros 16 ∧
      (∀ j, j < (mmoPad x).length / 16 → h (j + 1) = xorBytes (aes128 (h j) (block j)) (block j)) ∧
      mmoHash x = h ((mmoPad x).length / 16) ∧ (mmoHash x).length = 16

/-! ## Reset and coincident events -/

/-- 70_reset_and_hazards.md R320: reset wins over a completion that coincides with it, and a host's register access that
coincides with it is lost, of whatever width and offset, a load or store of a byte in the register window (log 12) among them:
no fault is raised, and the engine is in the reset state afterwards. Coincident events as orders of turns, and what the model's
own fields hold, are the model's (log 6, log 7, log 16). -/
def Obligations.ResetWinsOverCoincidentEvents : Prop :=
  ∀ (s : State) (op : HostOp) (c : Coincidence) (rest : List Turn),
    ((∃ w off, op = .regRead w off) ∨ (∃ w off v, op = .regWrite w off v) ∨
      (∃ a : Word, (op = .memRead a ∨ ∃ b, op = .memWrite a b) ∧ inRegion (window s.platform) a.toNat)) →
    c = .resetWithCompletion ∨ c = .resetWithAccess op →
    c.orders s.platform ≠ [] ∧
    ∀ o ∈ c.orders s.platform, ∃ t, Sys2Proof.core.run o.length { s with schedule := o ++ rest } = .next t ∧
      irq t = false ∧
      t = { State.resetOn s.platform rest with mem := t.mem, hostValue := s.hostValue, draws := t.draws }

/-- 70_reset_and_hazards.md R320, R322: a store of a byte outside the register window that coincides with reset is not lost:
that it comes before or after reset, and both orders are admitted, is the model's choice (log 25). While the engine is IDLE the
byte is in memory after either, and the engine is in the reset state. -/
def Obligations.StoreWithResetIsKept : Prop :=
  ∀ (s : State) (a : Word) (b : Byte) (rest : List Turn), s.mem.wf → s.phase = .idle →
    ¬ inRegion (window s.platform) a.toNat → (∀ d ∈ s.platform.sideEffects, ¬ inRegion d a.toNat) →
    (Coincidence.resetWithAccess (.memWrite a b)).orders s.platform ≠ [] ∧
    ∀ o ∈ (Coincidence.resetWithAccess (.memWrite a b)).orders s.platform, ∃ t,
      Sys2Proof.core.run o.length { s with schedule := o ++ rest } = .next t ∧ readByte t.mem a.toNat = b ∧
      (∀ x, x ≠ a.toNat → readByte t.mem x = readByte s.mem x) ∧
      t = { State.resetOn s.platform rest with mem := t.mem, hostValue := s.hostValue, draws := s.draws }
end

