-- ==== Sys2Proof/Laws/Bytes.lean ====
section
/-! SUPPORT. Laws of byte sequences: lengths, blocks, big-endian encodings, exclusive-or. -/

namespace Sys2Proof.Machine

@[simp] theorem zeros_length (n : Nat) : (zeros n).length = n := by simp [zeros]

@[simp] theorem rep_length (n : Nat) (b : Byte) : (rep n b).length = n := by simp [rep]

@[simp] theorem be_length (v n : Nat) : (be v n).length = n := by simp [be]

@[simp] theorem le32_length (w : Word) : (le32 w).length = 4 := by simp [le32]

@[simp] theorem xorBytes_length (a b : List Byte) : (xorBytes a b).length = min a.length b.length := by
  simp [xorBytes]

@[simp] theorem pad16_length (s : List Byte) : (pad16 s).length = s.length + (16 - s.length % 16) % 16 := by
  simp [pad16]

theorem pad16_length_mod (s : List Byte) : (pad16 s).length % 16 = 0 := by
  simp; omega

/-- The padded length in blocks. -/
theorem pad16_length_div (s : List Byte) : (pad16 s).length / 16 = (s.length + 15) / 16 := by
  simp; omega

@[simp] theorem chunks_length (k : Nat) (s : List Byte) : (chunks k s).length = k := by
  induction k generalizing s with
  | zero => rfl
  | succ k ih => simp [chunks, ih]

@[simp] theorem blocks_length (s : List Byte) : (blocks s).length = s.length / 16 := by simp [blocks]

/-- Every block of a sequence has 16 bytes. -/
theorem length_of_mem_chunks {k : Nat} {s b : List Byte} (hk : 16 * k ≤ s.length) (hb : b ∈ chunks k s) :
    b.length = 16 := by
  induction k generalizing s with
  | zero => simp [chunks] at hb
  | succ k ih =>
    rcases List.mem_cons.1 hb with rfl | hb
    · simp; omega
    · exact ih (by simp; omega) hb

/-- The last of the first k + 1 pieces. -/
theorem chunks_succ (k : Nat) (s : List Byte) : chunks (k + 1) s = chunks k s ++ [(s.drop (16 * k)).take 16] := by
  induction k generalizing s with
  | zero => rfl
  | succ k ih => rw [chunks, ih, chunks]; simp [List.drop_drop]; congr 2; omega

theorem length_of_mem_blocks {s b : List Byte} (hb : b ∈ blocks s) : b.length = 16 :=
  length_of_mem_chunks (Nat.mul_div_le _ _) hb

/-- Blocks joined again give the sequence back. -/
theorem chunks_flatten {k : Nat} {s : List Byte} (h : s.length = 16 * k) : (chunks k s).flatten = s := by
  induction k generalizing s with
  | zero => simpa [chunks] using (List.length_eq_zero_iff.1 (by simpa using h)).symm
  | succ k ih => simp [chunks, ih (s := s.drop 16) (by simp; omega)]

theorem blocks_flatten {s : List Byte} (h : s.length % 16 = 0) : (blocks s).flatten = s :=
  chunks_flatten (by omega)

/-- Byte j of `a ⊕ b` (00_scope.md R13). -/
theorem getD_xorBytes {a b : List Byte} {j : Nat} (ha : j < a.length) (hb : j < b.length) :
    (xorBytes a b).getD j 0 = a.getD j 0 ^^^ b.getD j 0 := by
  rw [List.getD_eq_getElem _ _ (by simp; omega), List.getD_eq_getElem _ _ ha, List.getD_eq_getElem _ _ hb]
  simp [xorBytes]

/-- Exclusive-or twice with the same sequence is the identity. -/
theorem xorBytes_xorBytes {a b : List Byte} (h : a.length ≤ b.length) : xorBytes (xorBytes a b) b = a := by
  induction a generalizing b with
  | nil => simp [xorBytes]
  | cons x a ih =>
    cases b with
    | nil => simp at h
    | cons y b =>
      have := ih (b := b) (by simpa using h)
      simpa [xorBytes, BitVec.xor_assoc] using this

/-- Byte i of `be(v, n)`. -/
theorem getElem_be (v n i : Nat) (h : i < (be v n).length) :
    (be v n)[i] = BitVec.ofNat 8 (v >>> (8 * (n - 1 - i))) := by simp [be]

/-- Big-endian encoding is injective below 2^(8n) (00_scope.md R14). -/
theorem be_inj {v w n : Nat} (hv : v < 2 ^ (8 * n)) (hw : w < 2 ^ (8 * n)) (h : be v n = be w n) : v = w := by
  apply Nat.eq_of_testBit_eq
  intro j
  by_cases hj : j < 8 * n
  · have hi : n - 1 - j / 8 < n := by omega
    have he : 8 * (n - 1 - (n - 1 - j / 8)) + j % 8 = j := by omega
    have h8 : j % 8 < 8 := Nat.mod_lt _ (by decide)
    have bit (x : Nat) : ((be x n).getD (n - 1 - j / 8) 0).getLsbD (j % 8) = x.testBit j := by
      rw [List.getD_eq_getElem _ _ (by simpa using hi), getElem_be, BitVec.getLsbD_ofNat, Nat.testBit_shiftRight, he]
      simp [h8]
    rw [← bit v, ← bit w, h]
  · have hle : 2 ^ (8 * n) ≤ 2 ^ j := Nat.pow_le_pow_right (by decide) (by omega)
    rw [Nat.testBit_lt_two_pow (by omega), Nat.testBit_lt_two_pow (by omega)]

/-- The four lanes of a word, put together again, are the word. -/
theorem le32_ofLanes (b0 b1 b2 b3 : Byte) : le32 (ofLanes b0 b1 b2 b3) = [b0, b1, b2, b3] := by
  simp only [le32, ofLanes, List.range, List.range.loop, List.map, List.cons.injEq, and_true]
  refine ⟨?_, ?_, ?_, ?_⟩ <;> (ext i hi; simp; grind)

end Sys2Proof.Machine
end

