-- ==== Sys2Proof/Laws/Aes.lean ====
section
/-! SUPPORT. Laws of the AES core: the shapes of its sequences (40_aes_core.md R142, R149, R157). -/

namespace Sys2Proof.Machine

@[simp] theorem subBytes_length (t : List Byte) : (subBytes t).length = t.length := by simp [subBytes]

@[simp] theorem shiftRows_length (t : List Byte) : (shiftRows t).length = 16 := by simp [shiftRows]

@[simp] theorem mixColumns_length (t : List Byte) : (mixColumns t).length = 16 := by
  simp [mixColumns, mixColumn, List.range, List.range.loop]

/-- The words of the key expansion have four bytes each. -/
def WordsOf4 (ws : List (List Byte)) : Prop := ∀ w ∈ ws, w.length = 4

theorem keyStep_words {ws : List (List Byte)} (h : WordsOf4 ws) (h4 : 4 ≤ ws.length) (i : Nat) :
    WordsOf4 (keyStep ws i) ∧ (keyStep ws i).length = ws.length + 1 := by
  have h0 : (ws.getD 0 []).length = 4 := by
    rw [List.getD_eq_getElem _ _ (by omega)]; exact h _ (List.getElem_mem _)
  have h3 : (ws.getD 3 []).length = 4 := by
    rw [List.getD_eq_getElem _ _ (by omega)]; exact h _ (List.getElem_mem _)
  refine ⟨?_, by simp [keyStep]⟩
  intro w hw
  simp only [keyStep, List.mem_cons] at hw
  rcases hw with rfl | hw
  · generalize ws.getD 0 [] = w0 at h0
    generalize ws.getD 3 [] = w3 at h3
    split_ifs <;> simp [subWord, rotWord, h0, h3]
  · exact h w hw

theorem foldl_keyStep_words (is : List Nat) {ws : List (List Byte)} (h : WordsOf4 ws) (h4 : 4 ≤ ws.length) :
    WordsOf4 (is.foldl keyStep ws) ∧ (is.foldl keyStep ws).length = ws.length + is.length := by
  induction is generalizing ws with
  | nil => exact ⟨h, rfl⟩
  | cons i is ih =>
    obtain ⟨h1, h2⟩ := keyStep_words h h4 i
    obtain ⟨h3, h5⟩ := ih h1 (by omega)
    exact ⟨h3, by simp only [List.foldl_cons, h5, h2, List.length_cons]; omega⟩

/-- The key expansion of a 16-byte key: 44 words of four bytes. -/
theorem keyWords_shape {k : List Byte} (hk : k.length = 16) : WordsOf4 (keyWords k) ∧ (keyWords k).length = 44 := by
  have h0 : WordsOf4 [(k.drop 12).take 4, (k.drop 8).take 4, (k.drop 4).take 4, k.take 4] := by
    intro w hw
    simp only [List.mem_cons, List.not_mem_nil, or_false] at hw
    rcases hw with rfl | rfl | rfl | rfl <;> simp [hk]
  obtain ⟨h1, h2⟩ := foldl_keyStep_words (List.range' 4 40) h0 (by simp)
  refine ⟨fun w hw => h1 w (by simpa [keyWords] using hw), by simpa [keyWords] using h2⟩

theorem groupWords_shape (n : Nat) {ws : List (List Byte)} (h : WordsOf4 ws) (hl : ws.length = 4 * n) :
    (∀ rk ∈ groupWords ws, rk.length = 16) ∧ (groupWords ws).length = n := by
  induction n generalizing ws with
  | zero => simp [List.length_eq_zero_iff.1 (by simpa using hl), groupWords]
  | succ n ih =>
    match ws, hl with
    | a :: b :: c :: d :: ws, hl =>
      have ⟨h1, h2⟩ := ih (ws := ws) (fun w hw => h w (by simp [hw])) (by simp at hl; omega)
      have ha := h a (by simp); have hb := h b (by simp); have hc := h c (by simp); have hd := h d (by simp)
      refine ⟨?_, by simp [groupWords, h2]⟩
      intro rk hrk
      rcases List.mem_cons.1 hrk with rfl | hrk
      · simp [ha, hb, hc, hd]
      · exact h1 rk hrk

/-- The key expansion of a 16-byte key: eleven round keys of 16 bytes (R149). -/
theorem roundKeys_shape {k : List Byte} (hk : k.length = 16) :
    (∀ rk ∈ roundKeys k, rk.length = 16) ∧ (roundKeys k).length = 11 := by
  obtain ⟨h1, h2⟩ := keyWords_shape hk
  exact groupWords_shape 11 h1 (by omega)

end Sys2Proof.Machine
end

