-- ==== Sys2Proof/Laws/Decode.lean ====
section
/-! SUPPORT. What the decoder can answer: one case per OP value (30_encoding.md R113, R115). -/

namespace Sys2Proof

/-- The decoder by the value of OP. -/
theorem decode_cases (v : Word) :
    ((v.extractLsb' 0 4).toNat = 1 ∧ decode v = .ok (.aesBlock (fieldsOf v))) ∨
    ((v.extractLsb' 0 4).toNat = 2 ∧ decode v = .ok (.ccmEnc (fieldsOf v))) ∨
    ((v.extractLsb' 0 4).toNat = 3 ∧ decode v = .ok (.ccmDec (fieldsOf v))) ∨
    ((v.extractLsb' 0 4).toNat = 4 ∧ decode v = .ok (.mmoHash (fieldsOf v))) ∨
    ((v.extractLsb' 0 4).toNat = 5 ∧ decode v = .ok (.hmacMmo (fieldsOf v))) ∨
    ((v.extractLsb' 0 4).toNat ∉ [1, 2, 3, 4, 5] ∧ decode v = .error .badOpcode) := by
  unfold decode
  split <;> simp_all

/-- The decoder's only error is BAD_OPCODE, on a reserved OP. -/
theorem decode_error {v : Word} {e : ErrorCode} (h : decode v = .error e) : e = .badOpcode := by
  rcases decode_cases v with ⟨-, hd⟩ | ⟨-, hd⟩ | ⟨-, hd⟩ | ⟨-, hd⟩ | ⟨-, hd⟩ | ⟨-, hd⟩ <;> rw [hd] at h <;> simp at h
  exact h.symm

end Sys2Proof
end

