-- ==== Sys2Proof/Laws/Memory.lean ====
section
/-! SUPPORT. Laws of memory: read after write, and that every memory operation keeps the canonical form. -/

namespace Sys2Proof.Machine

/-! ## Read after write -/

/-- Below every listed address memory reads as unlisted. -/
theorem readByte_of_lt {m : Memory} {a : Nat} (h : ∀ c ∈ m, a < c.1) : readByte m a = Memory.unlisted := by
  induction m with
  | nil => rfl
  | cons c m ih =>
    have hc : c.1 ≠ a := Nat.ne_of_gt (h c (by simp))
    simp [readByte, hc, ih fun d hd => h d (by simp [hd])]

/-- A byte reads as what was last written there. -/
theorem readByte_writeByte {m : Memory} (hm : m.wf) (a : Nat) (b : Byte) (x : Nat) :
    readByte (writeByte m a b) x = if x = a then b else readByte m x := by
  induction m with
  | nil =>
    by_cases hb : b = Memory.unlisted <;> simp [writeByte, readByte, hb, eq_comm]
  | cons c m ih =>
    obtain ⟨y, v⟩ := c
    have hrest : Memory.wf m := ⟨(List.pairwise_cons.1 hm.1).2, fun d hd => hm.2 d (by simp [hd])⟩
    have hlow : ∀ d ∈ m, y < d.1 := (List.pairwise_cons.1 hm.1).1
    have hbelow : a ≤ y → readByte m a = Memory.unlisted :=
      fun h => readByte_of_lt fun d hd => Nat.lt_of_le_of_lt h (hlow d hd)
    have ih := ih hrest
    rcases Nat.lt_trichotomy a y with h | h | h
    · have hne : y ≠ a := Nat.ne_of_gt h
      by_cases hb : b = Memory.unlisted
      · by_cases hx : x = a
        · subst hx; simp [writeByte, readByte, h, hb, hne, hbelow (Nat.le_of_lt h)]
        · simp [writeByte, h, hb, hx]
      · by_cases hx : x = a
        · subst hx; simp [writeByte, readByte, h, hb]
        · simp [writeByte, readByte, h, hb, hx, Ne.symm hx]
    · subst h
      by_cases hb : b = Memory.unlisted
      · by_cases hx : x = a
        · subst hx; simp [writeByte, hb, hbelow]
        · simp [writeByte, readByte, hb, hx, Ne.symm hx]
      · by_cases hx : x = a
        · subst hx; simp [writeByte, readByte, hb]
        · simp [writeByte, readByte, hb, hx, Ne.symm hx]
    · have hlt : ¬ a < y := Nat.not_lt_of_gt h
      have hne : a ≠ y := Nat.ne_of_gt h
      by_cases hx : x = a
      · subst hx; simp [writeByte, readByte, hlt, hne, Ne.symm hne, ih]
      · by_cases hy : y = x
        · subst hy; simp [writeByte, readByte, hlt, hne, Ne.symm hne]
        · simp [writeByte, readByte, hlt, hne, hy, ih, hx]

/-! ## The canonical form -/

/-- Addresses of a memory after a one-byte store. -/
theorem mem_writeByte {m : Memory} {a : Nat} {b : Byte} {c : Host.Cell} (h : c ∈ writeByte m a b) :
    (c = (a, b) ∧ b ≠ Memory.unlisted) ∨ c ∈ m := by
  induction m with
  | nil =>
    unfold writeByte at h
    split_ifs at h with hb
    · simp at h
    · exact .inl ⟨by simpa using h, hb⟩
  | cons d m ih =>
    obtain ⟨y, v⟩ := d
    unfold writeByte at h
    split_ifs at h with h1 h2 h3 h4
    · exact .inr h
    · rcases List.mem_cons.1 h with h | h
      · exact .inl ⟨h, h2⟩
      · exact .inr h
    · exact .inr (List.mem_cons_of_mem _ h)
    · rcases List.mem_cons.1 h with h | h
      · exact .inl ⟨h, h4⟩
      · exact .inr (List.mem_cons_of_mem _ h)
    · rcases List.mem_cons.1 h with h | h
      · exact .inr (by simp [h])
      · exact (ih h).imp_right (List.mem_cons_of_mem _)

/-- A store of one byte keeps the canonical form. -/
theorem writeByte_wf {m : Memory} (hm : m.wf) {a : Nat} (ha : a < 2 ^ 32) (b : Byte) : (writeByte m a b).wf := by
  refine ⟨?_, ?_⟩
  · have hp := hm.1
    clear hm
    induction m with
    | nil => unfold writeByte; split_ifs <;> simp
    | cons c m ih =>
      obtain ⟨y, v⟩ := c
      obtain ⟨hlow, hrest⟩ := List.pairwise_cons.1 hp
      unfold writeByte
      split_ifs with h1 h2 h3 h4
      · exact hp
      · exact List.pairwise_cons.2 ⟨fun d hd => by
          rcases List.mem_cons.1 hd with rfl | hd
          · exact h1
          · exact Nat.lt_trans h1 (hlow d hd), hp⟩
      · exact hrest
      · subst h3; exact List.pairwise_cons.2 ⟨hlow, hrest⟩
      · refine List.pairwise_cons.2 ⟨fun d hd => ?_, ih hrest⟩
        rcases mem_writeByte hd with ⟨rfl, -⟩ | hd
        · exact Nat.lt_of_le_of_ne (Nat.le_of_not_lt h1) (Ne.symm h3)
        · exact hlow d hd
  · intro c hc
    rcases mem_writeByte hc with ⟨rfl, hb⟩ | hc
    · exact ⟨ha, hb⟩
    · exact hm.2 c hc

/-- MemWrite keeps the canonical form when it stays inside the address space. -/
theorem writeBytes_wf {m : Memory} (hm : m.wf) {a : Nat} (s : List Byte) (h : a + s.length ≤ 2 ^ 32) :
    (writeBytes m a s).wf := by
  induction s generalizing m a with
  | nil => exact hm
  | cons b s ih =>
    simp only [List.length_cons] at h
    exact ih (writeByte_wf hm (by omega) b) (by omega)

/-- MemWrite: byte i of the sequence is at a + i afterwards, and every other byte is as before. -/
theorem readByte_writeBytes {m : Memory} (hm : m.wf) {a : Nat} (s : List Byte) (h : a + s.length ≤ 2 ^ 32) (x : Nat) :
    readByte (writeBytes m a s) x = if a ≤ x ∧ x < a + s.length then s.getD (x - a) 0 else readByte m x := by
  induction s generalizing m a with
  | nil => simp [writeBytes]
  | cons b s ih =>
    simp only [List.length_cons] at h
    rw [writeBytes, ih (writeByte_wf hm (by omega) b) (by omega), readByte_writeByte hm]
    by_cases hx : x = a
    · subst hx; simp
    · by_cases hin : a + 1 ≤ x ∧ x < a + 1 + s.length
      · have hs : x - a = (x - (a + 1)) + 1 := by omega
        have hin' : a ≤ x ∧ x < a + (s.length + 1) := by omega
        simp [hin, hin', hs]
      · have hin' : ¬ (a ≤ x ∧ x < a + (s.length + 1)) := by omega
        rw [if_neg hin, if_neg hx, List.length_cons, if_neg hin']

@[simp] theorem readBytes_length (m : Memory) (a n : Nat) : (readBytes m a n).length = n := by simp [readBytes]

/-- Reading back what was written. -/
theorem readBytes_writeBytes {m : Memory} (hm : m.wf) {a : Nat} (s : List Byte) (h : a + s.length ≤ 2 ^ 32) :
    readBytes (writeBytes m a s) a s.length = s := by
  apply List.ext_getElem
  · simp
  · intro i h1 h2
    simp [readBytes, readByte_writeBytes hm s h, h2]

/-- Reads that see the same bytes give the same sequence. -/
theorem readBytes_congr {m m' : Memory} {a n : Nat} (h : ∀ x, a ≤ x → x < a + n → readByte m x = readByte m' x) :
    readBytes m a n = readBytes m' a n := by
  simp only [readBytes, List.map_inj_left, List.mem_range]
  intro i hi
  exact h _ (by omega) (by omega)

/-- Two canonical memories that read the same everywhere are equal. -/
theorem memory_ext {m m' : Memory} (hm : m.wf) (hm' : m'.wf) (h : ∀ a, readByte m a = readByte m' a) : m = m' := by
  induction m generalizing m' with
  | nil =>
    cases m' with
    | nil => rfl
    | cons c m' =>
      have := h c.1
      simp [readByte] at this
      exact absurd this.symm (hm'.2 c (by simp)).2
  | cons c m ih =>
    obtain ⟨x, y⟩ := c
    cases m' with
    | nil =>
      have := h x
      simp [readByte] at this
      exact absurd this (hm.2 (x, y) (by simp)).2
    | cons d m' =>
      obtain ⟨x', y'⟩ := d
      obtain ⟨hl, hr⟩ := List.pairwise_cons.1 hm.1
      obtain ⟨hl', hr'⟩ := List.pairwise_cons.1 hm'.1
      have hy : y ≠ Memory.unlisted := (hm.2 (x, y) (by simp)).2
      have hy' : y' ≠ Memory.unlisted := (hm'.2 (x', y') (by simp)).2
      have hx : x = x' := by
        rcases Nat.lt_trichotomy x x' with hlt | heq | hgt
        · have := h x
          rw [readByte_of_lt (m := (x', y') :: m') (a := x) (by
            intro c hc
            rcases List.mem_cons.1 hc with rfl | hc
            · exact hlt
            · exact Nat.lt_trans hlt (hl' c hc))] at this
          simp [readByte] at this
          exact absurd this hy
        · exact heq
        · have := h x'
          rw [readByte_of_lt (m := (x, y) :: m) (a := x') (by
            intro c hc
            rcases List.mem_cons.1 hc with rfl | hc
            · exact hgt
            · exact Nat.lt_trans hgt (hl c hc))] at this
          simp [readByte] at this
          exact absurd this.symm hy'
      subst hx
      have hyy : y = y' := by simpa [readByte] using h x
      subst hyy
      have hw : Memory.wf m := ⟨hr, fun c hc => hm.2 c (by simp [hc])⟩
      have hw' : Memory.wf m' := ⟨hr', fun c hc => hm'.2 c (by simp [hc])⟩
      rw [ih hw hw' fun a => ?_]
      by_cases ha : x = a
      · subst ha
        rw [readByte_of_lt hl, readByte_of_lt hl']
      · simpa [readByte, ha] using h a

/-! ## Free bytes -/

/-- Free bytes keep the canonical form when they stay inside the address space. -/
theorem drawBytes_wf {ok : Nat → Bool} {m : Memory} (hm : m.wf) (a d n : Nat)
    (h : ∀ x, a ≤ x → x < a + n → ok x = true → x < 2 ^ 32) : (drawBytes ok m a d n).wf := by
  induction n with
  | zero => exact hm
  | succ n ih =>
    have := ih fun x h1 h2 h3 => h x h1 (by omega) h3
    unfold drawBytes
    split_ifs with hk
    · exact writeByte_wf this (h _ (by omega) (by omega) hk) _
    · exact this

/-- Byte a + i of the region takes draw d + i where `ok` holds; every other byte is as before. -/
theorem readByte_drawBytes {ok : Nat → Bool} {m : Memory} (hm : m.wf) (a d n : Nat)
    (h : ∀ x, a ≤ x → x < a + n → ok x = true → x < 2 ^ 32) (x : Nat) :
    readByte (drawBytes ok m a d n) x =
      if a ≤ x ∧ x < a + n ∧ ok x = true then Config.freeByte (d + (x - a)) else readByte m x := by
  induction n with
  | zero => simp [drawBytes]; omega
  | succ n ih =>
    have h' : ∀ x, a ≤ x → x < a + n → ok x = true → x < 2 ^ 32 := fun x h1 h2 h3 => h x h1 (by omega) h3
    have hi := ih h'
    unfold drawBytes
    by_cases hk : ok (a + n) = true
    · rw [if_pos hk, readByte_writeByte (drawBytes_wf hm a d n h'), hi]
      by_cases hx : x = a + n
      · subst hx; simp [hk]
      · have : (a ≤ x ∧ x < a + (n + 1) ∧ ok x = true) ↔ (a ≤ x ∧ x < a + n ∧ ok x = true) := by
          constructor <;> rintro ⟨h1, h2, h3⟩ <;> exact ⟨h1, by omega, h3⟩
        simp only [hx, if_false, this]
    · rw [if_neg hk, hi]
      by_cases hx : x = a + n
      · subst hx; simp [hk]
      · have : (a ≤ x ∧ x < a + (n + 1) ∧ ok x = true) ↔ (a ≤ x ∧ x < a + n ∧ ok x = true) := by
          constructor <;> rintro ⟨h1, h2, h3⟩ <;> exact ⟨h1, by omega, h3⟩
        simp only [this]

end Sys2Proof.Machine
end

