-- ==== Sys2Proof/Laws/Regions.lean ====
section
/-! SUPPORT. Laws of regions: the arithmetic checks say what they mean of bytes (60_exceptions.md R287 to R289). -/

namespace Sys2Proof.Machine

/-- Two regions overlap exactly when they share a byte (R288). -/
theorem overlaps_iff (r1 r2 : Region) : overlaps r1 r2 = true ↔ ∃ a, inRegion r1 a ∧ inRegion r2 a := by
  simp only [overlaps, inRegion, Bool.and_eq_true, decide_eq_true_eq]
  constructor
  · rintro ⟨⟨⟨h1, h2⟩, h3⟩, h4⟩
    exact ⟨max r1.base r2.base, by omega⟩
  · rintro ⟨a, h⟩
    omega

/-- A region is in range exactly when each of its bytes has a 32-bit address (R287). -/
theorem inRange_iff (r : Region) : inRange r = true ↔ ∀ a, inRegion r a → a < 2 ^ 32 := by
  simp only [inRange, inRegion, Bool.or_eq_true, beq_iff_eq, decide_eq_true_eq]
  constructor
  · intro h a ha
    omega
  · intro h
    by_cases h0 : r.len = 0
    · exact .inl h0
    · have := h (r.base + r.len - 1) (by omega)
      omega

/-- No bus hole meets the region exactly when BusOK holds of each of its bytes (R289). -/
theorem regionBusOK_iff (p : Platform) (r : Region) (k : AccessKind) :
    regionBusOK p r k = true ↔ ∀ a, inRegion r a → busOK p a k = true := by
  simp only [regionBusOK, busOK, Bool.not_eq_true', List.any_eq_false, Bool.and_eq_true, beq_iff_eq,
    decide_eq_true_eq, overlaps_iff]
  constructor
  · intro h a ha b hb hk
    exact h b hb ⟨hk.1, a, hk.2, ha⟩
  · rintro h b hb ⟨hk, a, h1, h2⟩
    exact h a h2 b hb ⟨hk, h1⟩

/-- The DMA accesses of a command meet no bus error exactly when BusOK holds of each byte of its regions (R289). -/
theorem dmaOK_iff (p : Platform) (i : Instr) (l : Latch) :
    dmaOK p i l = true ↔ (∀ r ∈ inputRegions i l, ∀ a, inRegion r a → busOK p a .read = true) ∧
      ∀ a, inRegion (outputRegion i l) a → busOK p a .write = true := by
  simp [dmaOK, regionBusOK_iff]

/-- Stage 3 passes exactly when every byte of every region has a 32-bit address. -/
theorem rangeError_eq_none_iff (i : Instr) (l : Latch) :
    rangeError i l = none ↔ ∀ r ∈ regions i l, ∀ a, inRegion r a → a < 2 ^ 32 := by
  unfold rangeError
  split_ifs with h
  · simpa [List.all_eq_true, inRange_iff] using h
  · simpa [List.all_eq_true, inRange_iff] using h

/-- Some input region overlaps the output region exactly when they share a byte. -/
theorem any_overlaps_iff (rs : List Region) (o : Region) :
    (rs.any fun r => overlaps r o) = true ↔ ∃ r ∈ rs, ∃ a, inRegion r a ∧ inRegion o a := by
  simp only [List.any_eq_true, overlaps_iff]

/-- Stage 4 passes exactly when the output region shares no byte with an input region. -/
theorem overlapError_eq_none_iff (i : Instr) (l : Latch) :
    overlapError i l = none ↔ ∀ r ∈ inputRegions i l, ∀ a, inRegion r a → ¬ inRegion (outputRegion i l) a := by
  have := any_overlaps_iff (inputRegions i l) (outputRegion i l)
  unfold overlapError
  split_ifs with h
  · obtain ⟨r, hr, a, h1, h2⟩ := this.1 h
    exact iff_of_false (by simp) fun hn => hn r hr a h1 h2
  · exact iff_of_true rfl fun r hr a h1 h2 => h (this.2 ⟨r, hr, a, h1, h2⟩)

theorem rangeError_eq (i : Instr) (l : Latch) : rangeError i l = none ∨ rangeError i l = some .addrRange := by
  unfold rangeError; split_ifs <;> simp

theorem overlapError_eq (i : Instr) (l : Latch) : overlapError i l = none ∨ overlapError i l = some .overlap := by
  unfold overlapError; split_ifs <;> simp

theorem lengthError_eq (i : Instr) (l : Latch) : lengthError i l = none ∨ lengthError i l = some .badLength := by
  cases i <;> simp only [lengthError] <;> (try split_ifs) <;> simp

/-- Some region of the command meets memory with side effects exactly when one of its bytes has them. -/
theorem any_sideEffect_iff (rs ds : List Region) :
    (rs.any fun r => ds.any (overlaps r)) = true ↔ ∃ r ∈ rs, ∃ a, inRegion r a ∧ ∃ d ∈ ds, inRegion d a := by
  simp only [List.any_eq_true, overlaps_iff]
  constructor
  · rintro ⟨r, hr, d, hd, a, h1, h2⟩
    exact ⟨r, hr, a, h1, d, hd, h2⟩
  · rintro ⟨r, hr, a, h1, d, hd, h2⟩
    exact ⟨r, hr, d, hd, a, h1, h2⟩

/-- A command is not refused exactly when no byte of its regions is in the register window or has side effects. -/
theorem platformRefusal_eq_none_iff (p : Platform) (i : Instr) (l : Latch) :
    platformRefusal p i l = none ↔ ∀ r ∈ regions i l, ∀ a, inRegion r a →
      ¬ inRegion (window p) a ∧ ∀ d ∈ p.sideEffects, ¬ inRegion d a := by
  have hw := any_overlaps_iff (regions i l) (window p)
  have hs := any_sideEffect_iff (regions i l) p.sideEffects
  unfold platformRefusal
  split_ifs with h1 h2
  · obtain ⟨r, hr, a, ha, h⟩ := hw.1 h1
    exact iff_of_false (by simp) fun hn => (hn r hr a ha).1 h
  · obtain ⟨r, hr, a, ha, d, hd, h⟩ := hs.1 h2
    exact iff_of_false (by simp) fun hn => (hn r hr a ha).2 d hd h
  · exact iff_of_true rfl fun r hr a ha =>
      ⟨fun h => h1 (hw.2 ⟨r, hr, a, ha, h⟩), fun d hd h => h2 (hs.2 ⟨r, hr, a, ha, d, hd, h⟩)⟩

/-- A command is refused for the register window exactly when a byte of its regions is in it (20_memory.md R81). -/
theorem platformRefusal_eq_window_iff (p : Platform) (i : Instr) (l : Latch) :
    platformRefusal p i l = some .regionInRegisterWindow ↔
      ∃ r ∈ regions i l, ∃ a, inRegion r a ∧ inRegion (window p) a := by
  have hw := any_overlaps_iff (regions i l) (window p)
  unfold platformRefusal
  split_ifs with h1 h2
  · exact iff_of_true rfl (hw.1 h1)
  · exact iff_of_false (by simp) fun h => h1 (hw.2 h)
  · exact iff_of_false (by simp) fun h => h1 (hw.2 h)

/-- Otherwise it is refused for side effects exactly when a byte of its regions has them (20_memory.md R87). -/
theorem platformRefusal_eq_sideEffects_iff (p : Platform) (i : Instr) (l : Latch) :
    platformRefusal p i l = some .regionWithSideEffects ↔
      (¬ ∃ r ∈ regions i l, ∃ a, inRegion r a ∧ inRegion (window p) a) ∧
        ∃ r ∈ regions i l, ∃ a, inRegion r a ∧ ∃ d ∈ p.sideEffects, inRegion d a := by
  have hw := any_overlaps_iff (regions i l) (window p)
  have hs := any_sideEffect_iff (regions i l) p.sideEffects
  unfold platformRefusal
  split_ifs with h1 h2
  · exact iff_of_false (by simp) fun h => h.1 (hw.1 h1)
  · exact iff_of_true rfl ⟨fun h => h1 (hw.2 h), hs.1 h2⟩
  · exact iff_of_false (by simp) fun h => h2 (hs.2 h.2)

end Sys2Proof.Machine
end

