-- ==== Sys2Proof/Laws/State.lean ====
section
/-! SUPPORT. The fields of the state after each named update, one lemma per field per update. -/

namespace Sys2Proof.Machine

/-! ## Successful completion (60_exceptions.md R291) -/

@[simp] theorem complete_ctrl (n : Nat) (b : Bool) (s : State) : (complete n b s).ctrl = s.ctrl := rfl
@[simp] theorem complete_status (n : Nat) (b : Bool) (s : State) : (complete n b s).status = { s.status with authFail := b, errCode := .noError, err := false, done := true } := rfl
@[simp] theorem complete_outLen (n : Nat) (b : Bool) (s : State) : (complete n b s).outLen = BitVec.ofNat 32 n := rfl
@[simp] theorem complete_key (n : Nat) (b : Bool) (s : State) : (complete n b s).key = s.key := rfl
@[simp] theorem complete_nonce (n : Nat) (b : Bool) (s : State) : (complete n b s).nonce = s.nonce := rfl
@[simp] theorem complete_srcAddr (n : Nat) (b : Bool) (s : State) : (complete n b s).srcAddr = s.srcAddr := rfl
@[simp] theorem complete_srcLen (n : Nat) (b : Bool) (s : State) : (complete n b s).srcLen = s.srcLen := rfl
@[simp] theorem complete_adAddr (n : Nat) (b : Bool) (s : State) : (complete n b s).adAddr = s.adAddr := rfl
@[simp] theorem complete_adLen (n : Nat) (b : Bool) (s : State) : (complete n b s).adLen = s.adLen := rfl
@[simp] theorem complete_dstAddr (n : Nat) (b : Bool) (s : State) : (complete n b s).dstAddr = s.dstAddr := rfl
@[simp] theorem complete_phase (n : Nat) (b : Bool) (s : State) : (complete n b s).phase = .idle := rfl
@[simp] theorem complete_lat (n : Nat) (b : Bool) (s : State) : (complete n b s).lat = s.lat := rfl
@[simp] theorem complete_mem (n : Nat) (b : Bool) (s : State) : (complete n b s).mem = s.mem := rfl
@[simp] theorem complete_platform (n : Nat) (b : Bool) (s : State) : (complete n b s).platform = s.platform := rfl
@[simp] theorem complete_schedule (n : Nat) (b : Bool) (s : State) : (complete n b s).schedule = s.schedule := rfl
@[simp] theorem complete_hostValue (n : Nat) (b : Bool) (s : State) : (complete n b s).hostValue = s.hostValue := rfl
@[simp] theorem complete_draws (n : Nat) (b : Bool) (s : State) : (complete n b s).draws = s.draws := rfl

/-! ## Error completion (60_exceptions.md R292) -/

@[simp] theorem raiseError_ctrl (e : ErrorCode) (s : State) : (raiseError e s).ctrl = s.ctrl := rfl
@[simp] theorem raiseError_status (e : ErrorCode) (s : State) : (raiseError e s).status = { s.status with authFail := false, errCode := e, done := false, err := true } := rfl
@[simp] theorem raiseError_outLen (e : ErrorCode) (s : State) : (raiseError e s).outLen = 0 := rfl
@[simp] theorem raiseError_key (e : ErrorCode) (s : State) : (raiseError e s).key = s.key := rfl
@[simp] theorem raiseError_nonce (e : ErrorCode) (s : State) : (raiseError e s).nonce = s.nonce := rfl
@[simp] theorem raiseError_srcAddr (e : ErrorCode) (s : State) : (raiseError e s).srcAddr = s.srcAddr := rfl
@[simp] theorem raiseError_srcLen (e : ErrorCode) (s : State) : (raiseError e s).srcLen = s.srcLen := rfl
@[simp] theorem raiseError_adAddr (e : ErrorCode) (s : State) : (raiseError e s).adAddr = s.adAddr := rfl
@[simp] theorem raiseError_adLen (e : ErrorCode) (s : State) : (raiseError e s).adLen = s.adLen := rfl
@[simp] theorem raiseError_dstAddr (e : ErrorCode) (s : State) : (raiseError e s).dstAddr = s.dstAddr := rfl
@[simp] theorem raiseError_phase (e : ErrorCode) (s : State) : (raiseError e s).phase = .idle := rfl
@[simp] theorem raiseError_lat (e : ErrorCode) (s : State) : (raiseError e s).lat = s.lat := rfl
@[simp] theorem raiseError_mem (e : ErrorCode) (s : State) : (raiseError e s).mem = s.mem := rfl
@[simp] theorem raiseError_platform (e : ErrorCode) (s : State) : (raiseError e s).platform = s.platform := rfl
@[simp] theorem raiseError_schedule (e : ErrorCode) (s : State) : (raiseError e s).schedule = s.schedule := rfl
@[simp] theorem raiseError_hostValue (e : ErrorCode) (s : State) : (raiseError e s).hostValue = s.hostValue := rfl
@[simp] theorem raiseError_draws (e : ErrorCode) (s : State) : (raiseError e s).draws = s.draws := rfl

/-! ## A write of STATUS (10_state.md R40) -/

@[simp] theorem acknowledge_ctrl (v : Word) (s : State) : (acknowledge v s).ctrl = s.ctrl := rfl
@[simp] theorem acknowledge_status (v : Word) (s : State) : (acknowledge v s).status = s.status.clear v := rfl
@[simp] theorem acknowledge_outLen (v : Word) (s : State) : (acknowledge v s).outLen = s.outLen := rfl
@[simp] theorem acknowledge_key (v : Word) (s : State) : (acknowledge v s).key = s.key := rfl
@[simp] theorem acknowledge_nonce (v : Word) (s : State) : (acknowledge v s).nonce = s.nonce := rfl
@[simp] theorem acknowledge_srcAddr (v : Word) (s : State) : (acknowledge v s).srcAddr = s.srcAddr := rfl
@[simp] theorem acknowledge_srcLen (v : Word) (s : State) : (acknowledge v s).srcLen = s.srcLen := rfl
@[simp] theorem acknowledge_adAddr (v : Word) (s : State) : (acknowledge v s).adAddr = s.adAddr := rfl
@[simp] theorem acknowledge_adLen (v : Word) (s : State) : (acknowledge v s).adLen = s.adLen := rfl
@[simp] theorem acknowledge_dstAddr (v : Word) (s : State) : (acknowledge v s).dstAddr = s.dstAddr := rfl
@[simp] theorem acknowledge_phase (v : Word) (s : State) : (acknowledge v s).phase = s.phase := rfl
@[simp] theorem acknowledge_lat (v : Word) (s : State) : (acknowledge v s).lat = s.lat := rfl
@[simp] theorem acknowledge_mem (v : Word) (s : State) : (acknowledge v s).mem = s.mem := rfl
@[simp] theorem acknowledge_platform (v : Word) (s : State) : (acknowledge v s).platform = s.platform := rfl
@[simp] theorem acknowledge_schedule (v : Word) (s : State) : (acknowledge v s).schedule = s.schedule := rfl
@[simp] theorem acknowledge_hostValue (v : Word) (s : State) : (acknowledge v s).hostValue = s.hostValue := rfl
@[simp] theorem acknowledge_draws (v : Word) (s : State) : (acknowledge v s).draws = s.draws := rfl

/-! ## Acceptance (10_state.md R65) -/

@[simp] theorem accept_ctrl (v : Word) (s : State) : (accept v s).ctrl = s.ctrl := rfl
@[simp] theorem accept_status (v : Word) (s : State) : (accept v s).status = { s.status with done := false, err := false, authFail := false, errCode := .noError } := rfl
@[simp] theorem accept_outLen (v : Word) (s : State) : (accept v s).outLen = 0 := rfl
@[simp] theorem accept_key (v : Word) (s : State) : (accept v s).key = s.key := rfl
@[simp] theorem accept_nonce (v : Word) (s : State) : (accept v s).nonce = s.nonce := rfl
@[simp] theorem accept_srcAddr (v : Word) (s : State) : (accept v s).srcAddr = s.srcAddr := rfl
@[simp] theorem accept_srcLen (v : Word) (s : State) : (accept v s).srcLen = s.srcLen := rfl
@[simp] theorem accept_adAddr (v : Word) (s : State) : (accept v s).adAddr = s.adAddr := rfl
@[simp] theorem accept_adLen (v : Word) (s : State) : (accept v s).adLen = s.adLen := rfl
@[simp] theorem accept_dstAddr (v : Word) (s : State) : (accept v s).dstAddr = s.dstAddr := rfl
@[simp] theorem accept_phase (v : Word) (s : State) : (accept v s).phase = .busy := rfl
@[simp] theorem accept_lat (v : Word) (s : State) : (accept v s).lat = latchOf v s := rfl
@[simp] theorem accept_mem (v : Word) (s : State) : (accept v s).mem = s.mem := rfl
@[simp] theorem accept_platform (v : Word) (s : State) : (accept v s).platform = s.platform := rfl
@[simp] theorem accept_schedule (v : Word) (s : State) : (accept v s).schedule = s.schedule := rfl
@[simp] theorem accept_hostValue (v : Word) (s : State) : (accept v s).hostValue = s.hostValue := rfl
@[simp] theorem accept_draws (v : Word) (s : State) : (accept v s).draws = s.draws := rfl

/-! ## An ignored command (10_state.md R66) -/

@[simp] theorem ignoreCmd_ctrl (s : State) : (ignoreCmd s).ctrl = s.ctrl := rfl
@[simp] theorem ignoreCmd_status (s : State) : (ignoreCmd s).status = { s.status with cmdIgnored := true } := rfl
@[simp] theorem ignoreCmd_outLen (s : State) : (ignoreCmd s).outLen = s.outLen := rfl
@[simp] theorem ignoreCmd_key (s : State) : (ignoreCmd s).key = s.key := rfl
@[simp] theorem ignoreCmd_nonce (s : State) : (ignoreCmd s).nonce = s.nonce := rfl
@[simp] theorem ignoreCmd_srcAddr (s : State) : (ignoreCmd s).srcAddr = s.srcAddr := rfl
@[simp] theorem ignoreCmd_srcLen (s : State) : (ignoreCmd s).srcLen = s.srcLen := rfl
@[simp] theorem ignoreCmd_adAddr (s : State) : (ignoreCmd s).adAddr = s.adAddr := rfl
@[simp] theorem ignoreCmd_adLen (s : State) : (ignoreCmd s).adLen = s.adLen := rfl
@[simp] theorem ignoreCmd_dstAddr (s : State) : (ignoreCmd s).dstAddr = s.dstAddr := rfl
@[simp] theorem ignoreCmd_phase (s : State) : (ignoreCmd s).phase = s.phase := rfl
@[simp] theorem ignoreCmd_lat (s : State) : (ignoreCmd s).lat = s.lat := rfl
@[simp] theorem ignoreCmd_mem (s : State) : (ignoreCmd s).mem = s.mem := rfl
@[simp] theorem ignoreCmd_platform (s : State) : (ignoreCmd s).platform = s.platform := rfl
@[simp] theorem ignoreCmd_schedule (s : State) : (ignoreCmd s).schedule = s.schedule := rfl
@[simp] theorem ignoreCmd_hostValue (s : State) : (ignoreCmd s).hostValue = s.hostValue := rfl
@[simp] theorem ignoreCmd_draws (s : State) : (ignoreCmd s).draws = s.draws := rfl

/-! ## Free bytes in a region -/

@[simp] theorem drawRegion_ctrl (s : State) (ok : Nat → Bool) (r : Region) : (s.drawRegion ok r).ctrl = s.ctrl := rfl
@[simp] theorem drawRegion_status (s : State) (ok : Nat → Bool) (r : Region) : (s.drawRegion ok r).status = s.status := rfl
@[simp] theorem drawRegion_outLen (s : State) (ok : Nat → Bool) (r : Region) : (s.drawRegion ok r).outLen = s.outLen := rfl
@[simp] theorem drawRegion_key (s : State) (ok : Nat → Bool) (r : Region) : (s.drawRegion ok r).key = s.key := rfl
@[simp] theorem drawRegion_nonce (s : State) (ok : Nat → Bool) (r : Region) : (s.drawRegion ok r).nonce = s.nonce := rfl
@[simp] theorem drawRegion_srcAddr (s : State) (ok : Nat → Bool) (r : Region) : (s.drawRegion ok r).srcAddr = s.srcAddr := rfl
@[simp] theorem drawRegion_srcLen (s : State) (ok : Nat → Bool) (r : Region) : (s.drawRegion ok r).srcLen = s.srcLen := rfl
@[simp] theorem drawRegion_adAddr (s : State) (ok : Nat → Bool) (r : Region) : (s.drawRegion ok r).adAddr = s.adAddr := rfl
@[simp] theorem drawRegion_adLen (s : State) (ok : Nat → Bool) (r : Region) : (s.drawRegion ok r).adLen = s.adLen := rfl
@[simp] theorem drawRegion_dstAddr (s : State) (ok : Nat → Bool) (r : Region) : (s.drawRegion ok r).dstAddr = s.dstAddr := rfl
@[simp] theorem drawRegion_phase (s : State) (ok : Nat → Bool) (r : Region) : (s.drawRegion ok r).phase = s.phase := rfl
@[simp] theorem drawRegion_lat (s : State) (ok : Nat → Bool) (r : Region) : (s.drawRegion ok r).lat = s.lat := rfl
@[simp] theorem drawRegion_mem (s : State) (ok : Nat → Bool) (r : Region) : (s.drawRegion ok r).mem = drawBytes ok s.mem r.base s.draws r.len := rfl
@[simp] theorem drawRegion_platform (s : State) (ok : Nat → Bool) (r : Region) : (s.drawRegion ok r).platform = s.platform := rfl
@[simp] theorem drawRegion_schedule (s : State) (ok : Nat → Bool) (r : Region) : (s.drawRegion ok r).schedule = s.schedule := rfl
@[simp] theorem drawRegion_hostValue (s : State) (ok : Nat → Bool) (r : Region) : (s.drawRegion ok r).hostValue = s.hostValue := rfl
@[simp] theorem drawRegion_draws (s : State) (ok : Nat → Bool) (r : Region) : (s.drawRegion ok r).draws = s.draws + r.len := rfl

/-! ## Reset of the registers (70_reset_and_hazards.md R320) -/

@[simp] theorem resetRegisters_ctrl (s : State) : (resetRegisters s).ctrl = Ctrl.zero := rfl
@[simp] theorem resetRegisters_status (s : State) : (resetRegisters s).status = Status.zero := rfl
@[simp] theorem resetRegisters_outLen (s : State) : (resetRegisters s).outLen = 0 := rfl
@[simp] theorem resetRegisters_key (s : State) : (resetRegisters s).key = Quad.zero := rfl
@[simp] theorem resetRegisters_nonce (s : State) : (resetRegisters s).nonce = Quad.zero := rfl
@[simp] theorem resetRegisters_srcAddr (s : State) : (resetRegisters s).srcAddr = 0 := rfl
@[simp] theorem resetRegisters_srcLen (s : State) : (resetRegisters s).srcLen = 0 := rfl
@[simp] theorem resetRegisters_adAddr (s : State) : (resetRegisters s).adAddr = 0 := rfl
@[simp] theorem resetRegisters_adLen (s : State) : (resetRegisters s).adLen = 0 := rfl
@[simp] theorem resetRegisters_dstAddr (s : State) : (resetRegisters s).dstAddr = 0 := rfl
@[simp] theorem resetRegisters_phase (s : State) : (resetRegisters s).phase = .idle := rfl
@[simp] theorem resetRegisters_lat (s : State) : (resetRegisters s).lat = Latch.zero := rfl
@[simp] theorem resetRegisters_mem (s : State) : (resetRegisters s).mem = s.mem := rfl
@[simp] theorem resetRegisters_platform (s : State) : (resetRegisters s).platform = s.platform := rfl
@[simp] theorem resetRegisters_schedule (s : State) : (resetRegisters s).schedule = s.schedule := rfl
@[simp] theorem resetRegisters_hostValue (s : State) : (resetRegisters s).hostValue = s.hostValue := rfl
@[simp] theorem resetRegisters_draws (s : State) : (resetRegisters s).draws = s.draws := rfl

/-! ## The end of a successful command -/

@[simp] theorem finish_status (i : Instr) (r : Result) (s : State) : (finish i r s).status =
    { s.status with authFail := r.authFail, errCode := .noError, err := false, done := true } := rfl
@[simp] theorem finish_outLen (i : Instr) (r : Result) (s : State) :
    (finish i r s).outLen = BitVec.ofNat 32 (outputLength i s.lat) := rfl
@[simp] theorem finish_phase (i : Instr) (r : Result) (s : State) : (finish i r s).phase = .idle := rfl
@[simp] theorem finish_mem (i : Instr) (r : Result) (s : State) :
    (finish i r s).mem = writeBytes s.mem s.lat.dstAddr.toNat r.out := rfl
@[simp] theorem finish_lat (i : Instr) (r : Result) (s : State) : (finish i r s).lat = s.lat := rfl
@[simp] theorem finish_platform (i : Instr) (r : Result) (s : State) : (finish i r s).platform = s.platform := rfl
@[simp] theorem finish_draws (i : Instr) (r : Result) (s : State) : (finish i r s).draws = s.draws := rfl

/-- A successful command changes STATUS, OUT_LEN, the phase and memory, and nothing else (60_exceptions.md R297). -/
theorem finish_eq (i : Instr) (r : Result) (s : State) : finish i r s =
    { s with
      mem := (finish i r s).mem, outLen := (finish i r s).outLen, status := (finish i r s).status, phase := .idle } := rfl

/-- A BUS_ERROR completion changes STATUS, OUT_LEN, the phase, memory and the count of draws, and nothing else. -/
theorem busErrorCompletion_eq (i : Instr) (s : State) : busErrorCompletion i s =
    { raiseError .busError s with
      mem := drawBytes (fun a => busOK s.platform a .write) s.mem s.lat.dstAddr.toNat s.draws (outputLength i s.lat)
      draws := s.draws + outputLength i s.lat } := rfl

end Sys2Proof.Machine
end

