-- ==== Sys2Proof/Laws/Ops.lean ====
section
/-! SUPPORT. What the shared operations can do: validation, the execute step of a command, a host's turn. -/

namespace Sys2Proof.Machine

/-! ## Validation (60_exceptions.md R286) -/

/-- Validate passes exactly when each stage does. -/
theorem validate_eq_none_iff (i : Instr) (l : Latch) : validate i l = none ↔
    i.fieldError = none ∧ lengthError i l = none ∧ rangeError i l = none ∧ overlapError i l = none := by
  simp [validate, Option.or_eq_none_iff]

/-- Validate raises one of the codes 1 to 7. -/
theorem validate_code {i : Instr} {l : Latch} {e : ErrorCode} (h : validate i l = some e) :
    e ≠ .noError ∧ e ≠ .busError := by
  have hf : i.fieldError = some e → e ≠ .noError ∧ e ≠ .busError := by
    cases i <;> simp only [Instr.fieldError, zeroFieldsError, ccmFieldsError] <;> split_ifs <;>
      intro h <;> cases h <;> exact ⟨by decide, by decide⟩
  have hl := lengthError_eq i l
  have hr := rangeError_eq i l
  have ho := overlapError_eq i l
  unfold validate at h
  cases h1 : i.fieldError with
  | some c => rw [h1] at h; exact hf (by rw [h1]; simpa using h)
  | none =>
    rcases hl with hl | hl
    · rcases hr with hr | hr
      · rcases ho with ho | ho <;> simp [h1, hl, hr, ho] at h
        subst h; decide
      · simp [h1, hl, hr] at h; subst h; decide
    · simp [h1, hl] at h; subst h; decide

/-- After a passed Validate the output region lies in the address space. -/
theorem output_in_space {i : Instr} {l : Latch} (h : validate i l = none) :
    outputLength i l = 0 ∨ l.dstAddr.toNat + outputLength i l ≤ 2 ^ 32 := by
  have hr := (rangeError_eq_none_iff i l).1 ((validate_eq_none_iff i l).1 h).2.2.1 (outputRegion i l) (by simp [regions])
  by_cases h0 : outputLength i l = 0
  · exact .inl h0
  · have := hr (l.dstAddr.toNat + outputLength i l - 1) (by simp only [inRegion, outputRegion]; omega)
    exact .inr (by omega)

/-! ## The execute step of a command (60_exceptions.md R289 to R292) -/

/-- Everything an execute step can do: an error of Validate, a refusal, a successful end, or a bus error. -/
theorem runCommand_cases (i : Instr) (g : Latch → Memory → Result) (s : State) :
    (∃ e, validate i s.lat = some e ∧ runCommand i g s = .next (raiseError e s)) ∨
    (∃ r, validate i s.lat = none ∧ platformRefusal s.platform i s.lat = some r ∧ runCommand i g s = .refused r) ∨
    (validate i s.lat = none ∧ platformRefusal s.platform i s.lat = none ∧ dmaOK s.platform i s.lat = true ∧
      runCommand i g s = .next (finish i (g s.lat s.mem) s)) ∨
    (validate i s.lat = none ∧ platformRefusal s.platform i s.lat = none ∧ dmaOK s.platform i s.lat = false ∧
      runCommand i g s = .next (busErrorCompletion i s)) := by
  unfold runCommand
  cases hv : validate i s.lat with
  | some e => simp
  | none =>
    cases hp : platformRefusal s.platform i s.lat with
    | some r => simp
    | none => cases hd : dmaOK s.platform i s.lat <;> simp

/-- The next states of an execute step. -/
theorem runCommand_next {i : Instr} {g : Latch → Memory → Result} {s t : State} (h : runCommand i g s = .next t) :
    (∃ e, validate i s.lat = some e ∧ t = raiseError e s) ∨
    (validate i s.lat = none ∧ t = finish i (g s.lat s.mem) s) ∨
    (validate i s.lat = none ∧ t = busErrorCompletion i s) := by
  rcases runCommand_cases i g s with ⟨e, hv, hr⟩ | ⟨r, hv, hp, hr⟩ | ⟨hv, hp, hd, hr⟩ | ⟨hv, hp, hd, hr⟩ <;> rw [hr] at h
  · exact .inl ⟨e, hv, by simpa using h.symm⟩
  · simp at h
  · exact .inr (.inl ⟨hv, by simpa using h.symm⟩)
  · exact .inr (.inr ⟨hv, by simpa using h.symm⟩)

/-- The transform of each command. -/
def transformOf : Instr → Latch → Memory → Result
  | .aesBlock _ => aesBlockResult
  | .ccmEnc f => ccmEncResult f
  | .ccmDec f => ccmDecResult f
  | .mmoHash _ => mmoHashResult
  | .hmacMmo _ => hmacMmoResult

/-- Every command is an execute step with its own transform. -/
theorem exec_eq (i : Instr) (s : State) : exec i s = runCommand i (transformOf i) s := by
  cases i <;> rfl

/-- The next states of a command. -/
theorem exec_next {i : Instr} {s t : State} (h : exec i s = .next t) :
    (∃ e, validate i s.lat = some e ∧ t = raiseError e s) ∨
    (validate i s.lat = none ∧ t = finish i (transformOf i s.lat s.mem) s) ∨
    (validate i s.lat = none ∧ t = busErrorCompletion i s) :=
  runCommand_next (exec_eq i s ▸ h)

/-- A valid command that the platform lets run ends with its transform's result. -/
theorem exec_finish {i : Instr} {s : State} (hv : validate i s.lat = none)
    (hp : platformRefusal s.platform i s.lat = none) (hd : dmaOK s.platform i s.lat = true) :
    exec i s = .next (finish i (transformOf i s.lat s.mem) s) := by
  rw [exec_eq]; simp [runCommand, hv, hp, hd]

/-- A command that Validate turns away ends in an error completion. -/
theorem exec_raise {i : Instr} {s : State} {e : ErrorCode} (hv : validate i s.lat = some e) :
    exec i s = .next (raiseError e s) := by
  rw [exec_eq]; simp [runCommand, hv]

/-- An execute step reads and writes only what it is given: the rest of the state is a frame it keeps. -/
theorem exec_frame {i : Instr} {s t : State} (h : exec i s = .next t) :
    t = { s with status := t.status, outLen := t.outLen, phase := .idle, mem := t.mem, draws := t.draws } := by
  rcases exec_next h with ⟨e, -, rfl⟩ | ⟨-, rfl⟩ | ⟨-, rfl⟩ <;> rfl

end Sys2Proof.Machine
end

