-- ==== Sys2Proof/Laws/PerInstr.lean ====
section
/-! SUPPORT. Statements made per instruction: the field checks of 30_encoding.md R116 pass exactly on the legal words of R114. -/

namespace Sys2Proof

theorem zeroFieldsError_eq_none_iff (f : Fields) : zeroFieldsError f = none ↔ f.Zero := by
  unfold zeroFieldsError
  split_ifs with h1 h2
  · exact iff_of_false (by simp) fun h => h1 h.2.2
  · refine iff_of_false (by simp) fun h => ?_
    rcases h2 with h2 | h2
    · exact h2 h.1
    · exact h2 h.2.1
  · rw [not_or, not_not, not_not] at h2
    exact iff_of_true rfl ⟨h2.1, h2.2, not_not.1 h1⟩

theorem ccmFieldsError_eq_none_iff (f : Fields) : ccmFieldsError f = none ↔ f.LegalCcm := by
  unfold ccmFieldsError
  split_ifs with h1 h2 h3
  · exact iff_of_false (by simp) fun h => h1 h.1
  · exact iff_of_false (by simp) fun h => by have := h.2.1; omega
  · exact iff_of_true rfl ⟨not_not.1 h1, by omega, h3⟩
  · exact iff_of_false (by simp) fun h => h3 h.2.2

end Sys2Proof

namespace Sys2Proof.Laws.FieldChecks

/-- The checks of R116 pass exactly when the command is legal (R114). -/
def Statement (i : Instr) : Prop := i.fieldError = none ↔ i.WellFormed

theorem aesBlock (f : Fields) : Statement (.aesBlock f) := zeroFieldsError_eq_none_iff f

theorem ccmEnc (f : Fields) : Statement (.ccmEnc f) := ccmFieldsError_eq_none_iff f

theorem ccmDec (f : Fields) : Statement (.ccmDec f) := ccmFieldsError_eq_none_iff f

theorem mmoHash (f : Fields) : Statement (.mmoHash f) := zeroFieldsError_eq_none_iff f

theorem hmacMmo (f : Fields) : Statement (.hmacMmo f) := zeroFieldsError_eq_none_iff f

end Sys2Proof.Laws.FieldChecks
end

