-- ==== Sys2Proof/Laws/Transforms.lean ====
section
/-! SUPPORT. How many bytes each transform gives: a command's output is as long as its output region. -/

namespace Sys2Proof.Machine

/-- A block encrypted is a block (40_aes_core.md R157). -/
theorem aes128_length {k b : List Byte} (hk : k.length = 16) (_hb : b.length = 16) : (aes128 k b).length = 16 := by
  obtain ⟨h1, h2⟩ := roundKeys_shape hk
  have h10 : ((roundKeys k).getD 10 []).length = 16 := by
    rw [List.getD_eq_getElem _ _ (by omega)]; exact h1 _ (List.getElem_mem _)
  simp [aes128, aesLastRound, addRoundKey]
  rw [← List.getD_eq_getElem?_getD]; omega

theorem quad_bytes_length (q : Quad) : q.bytes.length = 16 := by simp [Quad.bytes]

theorem mmo_fold_length (bs : List (List Byte)) (h : ∀ b ∈ bs, b.length = 16) (y : List Byte) (hy : y.length = 16) :
    (bs.foldl mmoCompress y).length = 16 := by
  induction bs generalizing y with
  | nil => exact hy
  | cons b bs ih =>
    apply ih (fun c hc => h c (by simp [hc]))
    have := h b (by simp)
    simp [mmoCompress, aes128_length hy this, this]

/-- A digest has 16 bytes (42_mmo_hash.md R235). -/
theorem mmoHash_length (x : List Byte) : (mmoHash x).length = 16 :=
  mmo_fold_length _ (fun _ h => length_of_mem_blocks h) _ (by simp)

theorem cbcMac_length {k : List Byte} (hk : k.length = 16) (s : List Byte) : (cbcMac k s).length = 16 := by
  have : ∀ (bs : List (List Byte)), (∀ b ∈ bs, b.length = 16) → ∀ y : List Byte, y.length = 16 →
    (bs.foldl (fun y x => aes128 k (xorBytes y x)) y).length = 16 := by
    intro bs
    induction bs with
    | nil => intro _ y hy; exact hy
    | cons b bs ih =>
      intro h y hy
      exact ih (fun c hc => h c (by simp [hc])) _ (aes128_length hk (by simp [h b (by simp), hy]))
  exact this _ (fun _ h => length_of_mem_blocks h) _ (by simp)

theorem counterBlock_length {nonce : List Byte} (h : nonce.length ≤ 13) (i : Nat) : (counterBlock nonce i).length = 16 := by
  simp [counterBlock]; omega

theorem flatMap_length_16 {α} (l : List α) (f : α → List Byte) (h : ∀ a ∈ l, (f a).length = 16) :
    (l.flatMap f).length = 16 * l.length := by
  induction l with
  | nil => rfl
  | cons a l ih =>
    simp only [List.flatMap_cons, List.length_append, List.length_cons, h a (by simp),
      ih (fun b hb => h b (by simp [hb]))]
    omega

theorem keyStream_length {k nonce : List Byte} (hk : k.length = 16) (h : nonce.length ≤ 13) (n : Nat) :
    (keyStream k nonce n).length = n := by
  unfold keyStream keyStreamBlocks
  rw [← List.flatMap_def]
  rw [List.length_take, flatMap_length_16 _ _ (fun i _ => aes128_length hk (counterBlock_length h i))]
  simp; omega

theorem ccmMac_length {k : List Byte} (hk : k.length = 16) (nonce ad p : List Byte) {m : Nat} (hm : m ≤ 16) :
    (ccmMac k nonce ad p m).length = m := by
  simp [ccmMac, cbcMac_length hk, hm]

theorem maskTag_length {k nonce tag : List Byte} (hk : k.length = 16) (h : nonce.length ≤ 13)
    {m : Nat} (hm : m ≤ 16) (ht : tag.length = m) : (maskTag k nonce tag m).length = m := by
  simp [maskTag, aes128_length hk (counterBlock_length h 0), ht]; omega

/-- CCM_ENC gives pLen + M bytes (41_ccm.md R192). -/
theorem ccmEnc_length {k nonce : List Byte} (hk : k.length = 16) (h : nonce.length ≤ 13) (ad p : List Byte) {m : Nat}
    (hm : m ≤ 16) : (ccmEnc k nonce ad p m).length = p.length + m := by
  simp [ccmEnc, keyStream_length hk h, maskTag_length hk h hm (ccmMac_length hk nonce ad p hm)]

/-- CCM_DEC gives SRC_LEN − M bytes (41_ccm.md R193). -/
theorem ccmDec_length {k nonce : List Byte} (hk : k.length = 16) (h : nonce.length ≤ 13) (ad i : List Byte) (m : Nat) :
    (ccmDec k nonce ad i m).1.length = i.length - m := by
  simp [ccmDec, keyStream_length hk h]

theorem legalMac_bounds {f : Fields} (h : f.LegalMac) : 4 ≤ f.mlen.toNat ∧ f.mlen.toNat ≤ 16 := by
  simp [Fields.LegalMac] at h; omega

theorem ccmNonce_length {f : Fields} (h : f.LegalNonce) (l : Latch) : (ccmNonce f l).length = f.nlen.toNat := by
  simp [ccmNonce, quad_bytes_length, ccmN]; omega

/-- A legal command writes exactly its output region. -/
theorem transform_length {i : Instr} (h : i.WellFormed) (l : Latch) (m : Memory) :
    (transformOf i l m).out.length = outputLength i l := by
  cases i with
  | aesBlock f => simp [transformOf, aesBlockResult, outputLength, aes128_length, quad_bytes_length]
  | mmoHash f => simp [transformOf, mmoHashResult, outputLength, mmoHash_length]
  | hmacMmo f => simp [transformOf, hmacMmoResult, hmacMmo, outputLength, mmoHash_length]
  | ccmEnc f =>
    obtain ⟨_, hn, hm⟩ := h
    have := ccmNonce_length hn l
    have h16 : ccmM f ≤ 16 := (legalMac_bounds hm).2
    simp only [transformOf, ccmEncResult, outputLength]
    rw [ccmEnc_length (quad_bytes_length _) (by omega) _ _ h16]
    simp [srcBytes]
  | ccmDec f =>
    obtain ⟨_, hn, hm⟩ := h
    have := ccmNonce_length hn l
    simp only [transformOf, ccmDecResult, outputLength]
    split_ifs
    · rw [ccmDec_length (quad_bytes_length _) (by omega)]; simp [srcBytes]
    · simp

end Sys2Proof.Machine
end

