-- ==== Sys2Proof/Laws/Safety.lean ====
section
/-! SUPPORT. The checks of the model against the conditions of Safety.lean, which speak of bytes; the turns of the engine
and of the host; runs of a few steps. -/

namespace Sys2Proof.Machine

/-- Stage 1 passes exactly for the legal words. -/
theorem fieldError_eq_none_iff (i : Instr) : i.fieldError = none ↔ i.WellFormed := by
  cases i
  · exact zeroFieldsError_eq_none_iff _
  · exact ccmFieldsError_eq_none_iff _
  · exact ccmFieldsError_eq_none_iff _
  · exact zeroFieldsError_eq_none_iff _
  · exact zeroFieldsError_eq_none_iff _

/-- Stage 2. -/
theorem lengthError_eq_none_iff (i : Instr) (l : Latch) : lengthError i l = none ↔ LengthLegal i l := by
  cases i <;> simp [lengthError, LengthLegal]

/-- Validate, said of bytes (60_exceptions.md R286). -/
theorem validate_passes_iff (i : Instr) (l : Latch) :
    validate i l = none ↔ i.WellFormed ∧ LengthLegal i l ∧ InAddressSpace i l ∧ Apart i l := by
  rw [validate_eq_none_iff, fieldError_eq_none_iff, lengthError_eq_none_iff,
    rangeError_eq_none_iff, overlapError_eq_none_iff]
  rfl

theorem valid_iff (i : Instr) (s : State) :
    Valid i s ↔ validate i s.lat = none ∧ platformRefusal s.platform i s.lat = none := by
  rw [validate_passes_iff, platformRefusal_eq_none_iff]
  exact ⟨fun h => ⟨⟨h.1, h.2, h.3, h.4⟩, h.5⟩, fun h => ⟨h.1.1, h.1.2.1, h.1.2.2.1, h.1.2.2.2, h.2⟩⟩

theorem busAdmits_iff (i : Instr) (s : State) : BusAdmits i s ↔ dmaOK s.platform i s.lat = true := (dmaOK_iff _ _ _).symm

theorem exec_of_valid {i : Instr} {s : State} (h : Valid i s) (hb : BusAdmits i s) :
    exec i s = .next (finish i (transformOf i s.lat s.mem) s) :=
  exec_finish ((valid_iff i s).1 h).1 ((valid_iff i s).1 h).2 ((busAdmits_iff i s).1 hb)

/-- OUT_LEN holds the output length of a command that passes Validate. -/
theorem outputLength_lt {i : Instr} {l : Latch} (h : validate i l = none) : outputLength i l < 2 ^ 32 := by
  rcases output_in_space h with h0 | h0
  · omega
  · obtain ⟨hw, hl, hs, ha⟩ := (validate_passes_iff i l).1 h
    by_contra hc
    have hd : l.dstAddr.toNat = 0 := by omega
    have e : outputLength i l = 2 ^ 32 := by omega
    cases i with
    | aesBlock f => simp [outputLength] at e
    | mmoHash f => simp [outputLength] at e
    | hmacMmo f => simp [outputLength] at e
    | ccmDec f =>
      have := l.srcLen.isLt
      simp only [outputLength] at e; omega
    | ccmEnc f =>
      have h4 := (legalMac_bounds hw.2.2).2
      simp only [outputLength, ccmM] at e
      have hin : inRegion ⟨l.srcAddr.toNat, l.srcLen.toNat⟩ l.srcAddr.toNat := by simp only [inRegion]; omega
      have := hs ⟨l.srcAddr.toNat, l.srcLen.toNat⟩ (by simp [regions, inputRegions]) _ hin
      exact ha ⟨l.srcAddr.toNat, l.srcLen.toNat⟩ (by simp [inputRegions]) _ hin
        (by simp only [inRegion, outputRegion, outputLength, ccmM]; omega)

/-- The turn of a busy engine. -/
theorem engineTurn_busy {s : State} (h : s.phase = .busy) :
    (∃ i, decode s.lat.cmd = .ok i ∧ engineTurn s = exec i s) ∨
    (decode s.lat.cmd = .error .badOpcode ∧ engineTurn s = .next (raiseError .badOpcode s)) := by
  unfold engineTurn
  rw [h]
  cases hd : decode s.lat.cmd with
  | ok i => exact .inl ⟨i, rfl, rfl⟩
  | error e => cases decode_error hd; exact .inr ⟨rfl, rfl⟩

/-- The next states of a busy engine. -/
theorem engineTurn_next {s t : State} (hb : s.phase = .busy) (h : engineTurn s = .next t) :
    (∃ e, e ≠ .noError ∧ e ≠ .busError ∧ t = raiseError e s) ∨
    (∃ i, decode s.lat.cmd = .ok i ∧ validate i s.lat = none ∧ t = finish i (transformOf i s.lat s.mem) s) ∨
    (∃ i, decode s.lat.cmd = .ok i ∧ validate i s.lat = none ∧ t = busErrorCompletion i s) := by
  rcases engineTurn_busy hb with ⟨i, hi, h'⟩ | ⟨hi, h'⟩ <;> rw [h'] at h
  · rcases exec_next h with ⟨e, hv, rfl⟩ | ⟨hv, rfl⟩ | ⟨hv, rfl⟩
    · exact .inl ⟨e, (validate_code hv).1, (validate_code hv).2, rfl⟩
    · exact .inr (.inl ⟨i, hi, hv, rfl⟩)
    · exact .inr (.inr ⟨i, hi, hv, rfl⟩)
  · cases h; exact .inl ⟨_, by decide, by decide, rfl⟩

theorem runningCommand_eq {s : State} {i} (hb : s.phase = .busy) (h : decode s.lat.cmd = .ok i) :
    runningCommand s = some i := by
  simp [runningCommand, hb, h]

/-- A safe turn of the engine completes. -/
theorem engineTurn_safe {s : State} (hb : s.phase = .busy) (hs : turnIsSafe .engine s) : ∃ t, engineTurn s = .next t := by
  rcases engineTurn_busy hb with ⟨i, hi, h⟩ | ⟨hi, h⟩
  · rw [h, exec_eq]
    rcases runCommand_cases i (transformOf i) s with ⟨e, -, h⟩ | ⟨r, h1, h2, h⟩ | ⟨_, _, _, h⟩ | ⟨_, _, _, h⟩
    · exact ⟨_, h⟩
    · have := hs i (runningCommand_eq hb hi) h1
      simp [this] at h2
    · exact ⟨_, h⟩
    · exact ⟨_, h⟩
  · exact ⟨_, h⟩

theorem core_run_next (M : Host.Core) {s t : M.State} {n} (h : M.step s = .next t) : M.run (n + 1) s = M.run n t := by
  rw [Host.Core.run, h]

theorem core_run1 (M : Host.Core) (s : M.State) : M.run 1 s = M.step s := by
  rw [Host.Core.run]
  cases M.step s <;> rfl

theorem run_next {s t : State} {n} (h : step s = .next t) : Sys2Proof.core.run (n + 1) s = Sys2Proof.core.run n t :=
  core_run_next Sys2Proof.core h

theorem run1 (s : State) : Sys2Proof.core.run 1 s = step s := core_run1 Sys2Proof.core s

theorem run2 {s t : State} (h : step s = .next t) : Sys2Proof.core.run 2 s = step t := by
  rw [run_next h, run1]

/-- An aligned register read. -/
theorem step_read {s : State} {off rest} (ha : off.toNat % 4 = 0) (hs : s.schedule = asmRd off :: rest) :
    step s = .next { s with schedule := rest, hostValue := readOffset off s } := by
  have : readOffset off { s with schedule := rest } = readOffset off s := by
    unfold readOffset
    cases regAt off with
    | none => rfl
    | some r => cases r <;> rfl
  simp [step, hs, takeTurn, asmRd, hostTurn, regRead, portAccess, ha, this]

/-- An aligned register write. -/
theorem step_write {s : State} {off v rest} (ha : off.toNat % 4 = 0) (hs : s.schedule = asmWr off v :: rest) :
    step s = .next (writeOffset off v { s with schedule := rest }) := by
  simp [step, hs, takeTurn, asmWr, hostTurn, regWrite, portAccess, ha]

end Sys2Proof.Machine
end

