-- ==== Sys2Proof/Tests/Slice0.lean ====
section
/-! SUPPORT. The model's own tests, with results from spec/95_test_vectors.md, and for each statement with hypotheses a
witness that meets them. -/

namespace Sys2Proof.Tests

open Sys2Proof Sys2Proof.Machine

/-! ## WellFormed: an ill-formed term for each check (30_encoding.md R114) -/

theorem test_wellFormed : (Instr.aesBlock ⟨0, 0, 0⟩).WellFormed ∧ (Instr.mmoHash ⟨0, 0, 0⟩).WellFormed ∧
    (Instr.hmacMmo ⟨0, 0, 0⟩).WellFormed ∧ (Instr.ccmEnc ⟨7, 4, 0⟩).WellFormed ∧
    (Instr.ccmDec ⟨13, 16, 0⟩).WellFormed := by decide
theorem test_wellFormed_zero_rsvd : ¬ (Instr.aesBlock ⟨0, 0, 1⟩).WellFormed := by decide
theorem test_wellFormed_zero_nlen : ¬ (Instr.mmoHash ⟨1, 0, 0⟩).WellFormed := by decide
theorem test_wellFormed_zero_mlen : ¬ (Instr.hmacMmo ⟨0, 1, 0⟩).WellFormed := by decide
theorem test_wellFormed_ccm_rsvd : ¬ (Instr.ccmEnc ⟨7, 4, 0x40000⟩).WellFormed := by decide
theorem test_wellFormed_ccm_nonce : ∀ n ∈ [0, 6, 14, 15], ¬ (Instr.ccmEnc ⟨n, 4, 0⟩).WellFormed := by decide
theorem test_wellFormed_ccm_mac : ∀ m ∈ [0, 2, 5, 17, 18, 31], ¬ (Instr.ccmDec ⟨7, m, 0⟩).WellFormed := by decide

/-! ## Decode: words written out from the field table (30_encoding.md R111), RSVD, MLEN, NLEN, OP -/

theorem test_decode_aesBlock :
    decode (0b0000000000000000000#19 ++ 0b00000#5 ++ 0b0000#4 ++ 0b0001#4) = .ok (.aesBlock ⟨0, 0, 0⟩) := rfl
theorem test_decode_ccmEnc :
    decode (0b0000000000000000000#19 ++ 0b01000#5 ++ 0b1100#4 ++ 0b0010#4) = .ok (.ccmEnc ⟨12, 8, 0⟩) := rfl
theorem test_decode_ccmDec :
    decode (0b0000000000000000000#19 ++ 0b10000#5 ++ 0b1101#4 ++ 0b0011#4) = .ok (.ccmDec ⟨13, 16, 0⟩) := rfl
theorem test_decode_mmoHash :
    decode (0b1000000000000000001#19 ++ 0b00000#5 ++ 0b0000#4 ++ 0b0100#4) = .ok (.mmoHash ⟨0, 0, 0x40001⟩) := rfl
theorem test_decode_hmacMmo :
    decode (0b0000000000000000000#19 ++ 0b00000#5 ++ 0b0000#4 ++ 0b0101#4) = .ok (.hmacMmo ⟨0, 0, 0⟩) := rfl
theorem test_decode_reserved : ∀ op ∈ [0, 6, 7, 8, 9, 10, 11, 12, 13, 14, 15],
    decodeTableWord 32 op = none := by decide
/-- 95_test_vectors.md section 3.2. -/
theorem test_decodeTableWord : decodeTableWord 32 0x00000ED2 = some (.ccmEnc ⟨13, 14, 0⟩) := by decide
theorem test_encode : encode (.ccmEnc ⟨8, 6, 0⟩) = 0x00000682 ∧ encode (.ccmDec ⟨7, 4, 0⟩) = 0x00000473 := by decide
/-- 95_test_vectors.md section 6.1: OP before RSVD, RSVD before N, N before M. -/
theorem test_decodeLegal : decodeLegal 0x00002006 = .error .badOpcode ∧ decodeLegal 0x00002473 = .error .badField ∧
    decodeLegal 0x00001FF2 = .error .badNonceLen ∧ decodeLegal 0x00000572 = .error .badMacLen := ⟨rfl, rfl, rfl, rfl⟩

/-! ## Components (95_test_vectors.md section 2.4, 3.1, 4.3) -/

theorem test_gmul : gmul 0x57 0x83 = 0xc1 ∧ gmul 0x57 0x13 = 0xfe ∧ xtime 0x80 = 0x1b := by decide
theorem test_sbox : sbox 0x53 = 0xed ∧ sbox 0x10 = 0xca ∧ sbox 0xff = 0x16 := by decide
theorem test_shiftRows : shiftRows [0, 1, 2, 3, 4, 5, 6, 7, 8, 9, 10, 11, 12, 13, 14, 15] =
    [0, 5, 10, 15, 4, 9, 14, 3, 8, 13, 2, 7, 12, 1, 6, 11] := by decide
theorem test_mixColumn : mixColumn 0xdb 0x13 0x53 0x45 = [0x8e, 0x4d, 0xa1, 0xbc] := by decide
theorem test_blockB0 : blockB0 [0x10, 0x11, 0x12, 0x13, 0x14, 0x15, 0x16] 8 4 4 =
    [0x4f, 0x10, 0x11, 0x12, 0x13, 0x14, 0x15, 0x16, 0, 0, 0, 0, 0, 0, 0, 4] := by decide
theorem test_adHdr : adHdr 0xFEFF = [0xfe, 0xff] ∧ adHdr 0xFF00 = [0xff, 0xfe, 0x00, 0x00, 0xff, 0x00] := by decide
theorem test_mmoPad : mmoPad [0xc0] = [0xc0, 0x80, 0, 0, 0, 0, 0, 0, 0, 0, 0, 0, 0, 0, 0, 0x08] := by decide
theorem test_aesCalls : aesCalls (.ccmEnc ⟨7, 4, 0⟩) { Latch.zero with srcLen := 4, adLen := 8 } = 5 := by decide

/-! ## One step of each command, the first after its word is accepted (95_test_vectors.md section 1) -/

/-- The bytes 0x40, 0x41, …, 0x4f. -/
def key40 : List Byte := (List.range 16).map fun i => BitVec.ofNat 8 (0x40 + i)

/-- The machine after reset with a key, input at 0x1000, associated data 00 01 … 07 at 0x1800 and output at 0x2000. -/
def before (key input : List Byte) : State :=
  { State.reset with
    key := { w0 := laneWord key 0, w1 := laneWord key 1, w2 := laneWord key 2, w3 := laneWord key 3 }
    nonce := { w0 := 0x13121110, w1 := 0x00161514, w2 := 0, w3 := 0 }
    srcAddr := 0x1000, srcLen := BitVec.ofNat 32 input.length, adAddr := 0x1800, adLen := 8, dstAddr := 0x2000
    mem := writeBytes (writeBytes [] 0x1000 input) 0x1800 [0, 1, 2, 3, 4, 5, 6, 7] }

/-- What a step leaves: the bytes written, and STATUS as it reads. -/
def result (o : Host.Outcome State Fault Refusal) : Option (List Byte × Word) :=
  match o with
  | .next t => some (readBytes t.mem 0x2000 t.outLen.toNat, statusWord t.phase t.status)
  | .fault _ => none
  | .refused _ => none

/-- S1, FIPS-197 Appendix B. -/
theorem test_aesBlock : result (step ((before
      [0x2b, 0x7e, 0x15, 0x16, 0x28, 0xae, 0xd2, 0xa6, 0xab, 0xf7, 0x15, 0x88, 0x09, 0xcf, 0x4f, 0x3c]
      [0x32, 0x43, 0xf6, 0xa8, 0x88, 0x5a, 0x30, 0x8d, 0x31, 0x31, 0x98, 0xa2, 0xe0, 0x37, 0x07, 0x34]).withFetchWord
        32 0x00000001)) =
    some ([0x39, 0x25, 0x84, 0x1d, 0x02, 0xdc, 0x09, 0xfb, 0xdc, 0x11, 0x85, 0x97, 0x19, 0x6a, 0x0b, 0x32], 2) := by
  decide +kernel
/-- S2, NIST SP 800-38C C.1. -/
theorem test_ccmEnc : result (step ((before key40 [0x20, 0x21, 0x22, 0x23]).withFetchWord 32 0x00000472)) =
    some ([0x71, 0x62, 0x01, 0x5b, 0x4d, 0xac, 0x25, 0x5d], 2) := by decide +kernel
/-- Section 3.6, untouched. -/
theorem test_ccmDec : result (step ((before key40 [0x71, 0x62, 0x01, 0x5b, 0x4d, 0xac, 0x25, 0x5d]).withFetchWord
    32 0x00000473)) = some ([0x20, 0x21, 0x22, 0x23], 2) := by decide +kernel
/-- Section 3.6, the last tag bit flipped, RELEASE_UNAUTH = 0. -/
theorem test_ccmDec_tampered : result (step ((before key40
    [0x71, 0x62, 0x01, 0x5b, 0x4d, 0xac, 0x25, 0x5c]).withFetchWord 32 0x00000473)) =
    some ([0, 0, 0, 0], 0xA) := by decide +kernel
/-- S3. -/
theorem test_mmoHash : result (step ((before key40 [0xC0]).withFetchWord 32 0x00000004)) =
    some ([0xae, 0x3a, 0x10, 0x2a, 0x28, 0xd4, 0x3e, 0xe0, 0xd4, 0xa0, 0x9e, 0x22, 0x78, 0x8b, 0x20, 0x6c], 2) := by
  decide +kernel
/-- S4. -/
theorem test_hmacMmo : result (step ((before key40 [0xC0]).withFetchWord 32 0x00000005)) =
    some ([0x45, 0x12, 0x80, 0x7b, 0xf9, 0x4c, 0xb3, 0x40, 0x0f, 0x0e, 0x2c, 0x25, 0xfb, 0x76, 0xe9, 0x99], 2) := by
  decide +kernel
/-- Section 6.2, row 2. -/
theorem test_badLength : result (step ((before key40 (zeros 15)).withFetchWord 32 0x00000001)) =
    some ([], 0x00000504) := by decide +kernel
/-- Section 6.3, rows 14 to 23: accepted, ignored while BUSY, BAD_LENGTH, then acknowledged bit by bit. -/
theorem test_registers :
    let s := acknowledge 0x00000004 (raiseError .badLength (writeCmd 4 (writeCmd 1 State.reset)))
    statusWord s.phase s.status = 0x00000510 ∧
      readOffset 0x08 (acknowledge 0x00000010 s) = 0x00000500 := by decide

/-! ## Witnesses: for each statement with hypotheses, states and operands that meet them -/

/-- A busy engine that has latched command i, on the platform p, with the turns ts to come. -/
def busyOn (p : Platform) (ts : List Turn) (i : Instr) (src srcLen ad adLen dst : Word) : State :=
  { State.resetOn p ts with
    phase := .busy
    lat := { Latch.zero with
      cmd := encode i, srcAddr := src, srcLen := srcLen, adAddr := ad, adLen := adLen, dstAddr := dst } }

/-- The same on the default platform. -/
def busyWith (ts : List Turn) (i : Instr) (src srcLen ad adLen dst : Word) : State :=
  busyOn Platform.default ts i src srcLen ad adLen dst

theorem witness_EncodeAndDecodeAreInverse : (Instr.ccmEnc ⟨13, 16, 0⟩).WellFormed ∧
    decodeLegal 0x00000472 = .ok (.ccmEnc ⟨7, 4, 0⟩) ∧ decode 0xFFFFFFF3 = .ok (.ccmDec ⟨15, 31, 0x7FFFF⟩) :=
  ⟨by decide, rfl, rfl⟩

/-- Words at the edges of each check: OP 0, 6 and 15; RSVD for OP 1 and 3; NLEN for OP 1 and MLEN for OP 5; N = 6 and 14;
M = 5 and 17; and legal words, with N = 7, M = 4 and N = 13, M = 16. -/
theorem witness_DecodeRunsItsChecksInOrder :
    (∀ v ∈ [0x00000000#32, 0x00000006#32, 0xFFFFFFFF#32], (v.extractLsb' 0 4).toNat ∉ [1, 2, 3, 4, 5]) ∧
    (∀ v ∈ [0x00002001#32, 0x80000063#32], (v.extractLsb' 0 4).toNat ∈ [1, 2, 3, 4, 5] ∧
      (v.extractLsb' 13 19).toNat ≠ 0) ∧
    (∀ v ∈ [0x00000011#32, 0x00000105#32], (v.extractLsb' 0 4).toNat ∈ [1, 4, 5] ∧ (v.extractLsb' 13 19).toNat = 0 ∧
      ((v.extractLsb' 4 4).toNat ≠ 0 ∨ (v.extractLsb' 8 5).toNat ≠ 0)) ∧
    (∀ v ∈ [0x00000462#32, 0x000004E3#32], (v.extractLsb' 0 4).toNat ∈ [2, 3] ∧ (v.extractLsb' 13 19).toNat = 0 ∧
      ((v.extractLsb' 4 4).toNat < 7 ∨ (v.extractLsb' 4 4).toNat > 13)) ∧
    (∀ v ∈ [0x00000572#32, 0x000011D3#32], (v.extractLsb' 0 4).toNat ∈ [2, 3] ∧ (v.extractLsb' 13 19).toNat = 0 ∧
      7 ≤ (v.extractLsb' 4 4).toNat ∧ (v.extractLsb' 4 4).toNat ≤ 13 ∧
      (v.extractLsb' 8 5).toNat ∉ [4, 6, 8, 10, 12, 14, 16]) ∧
    (∀ v ∈ [0x00000001#32, 0x00000004#32, 0x00000005#32], (v.extractLsb' 0 4).toNat ∈ [1, 4, 5] ∧
      (v.extractLsb' 4 28).toNat = 0) ∧
    (∀ v ∈ [0x00000472#32, 0x000010D3#32], (v.extractLsb' 0 4).toNat ∈ [2, 3] ∧ (v.extractLsb' 13 19).toNat = 0 ∧
      7 ≤ (v.extractLsb' 4 4).toNat ∧ (v.extractLsb' 4 4).toNat ≤ 13 ∧
      (v.extractLsb' 8 5).toNat ∈ [4, 6, 8, 10, 12, 14, 16]) :=
  ⟨by simp, by simp, by simp, by simp, by simp, by simp, by simp⟩

theorem witness_StepRunsTheLatchedCommand :
    (busyWith [.engine] (.mmoHash ⟨0, 0, 0⟩) 0 0 0 0 0).phase = .busy ∧
    decode (busyWith [.engine] (.mmoHash ⟨0, 0, 0⟩) 0 0 0 0 0).lat.cmd = .ok (.mmoHash ⟨0, 0, 0⟩) ∧
    (busyWith [.engine] (.mmoHash ⟨0, 0, 0⟩) 0 0 0 0 0).schedule = .engine :: [] ∧
    (busyWith [] (.mmoHash ⟨0, 0, 0⟩) 0 0 0 0 0).schedule = [] ∧
    decode ({ State.reset with phase := .busy, schedule := [.engine] } : State).lat.cmd = .error .badOpcode :=
  ⟨rfl, rfl, rfl, rfl, rfl⟩

theorem witness_IllegalWordIsAcceptedThenFails :
    (State.resetOn Platform.default [asmWr 0x04 0x00000572, .engine]).phase = .idle ∧
    (State.resetOn Platform.default [asmWr 0x04 0x00000572, .engine]).schedule = [asmWr 0x04 0x00000572, .engine] ∧
    decodeLegal 0x00000572 = .error .badMacLen := ⟨rfl, rfl, rfl⟩

theorem witness_AesBlockEncryptsTheBlock (s : State)
    (hs : s = busyWith [] (.aesBlock ⟨0, 0, 0⟩) 0xFFFFFFF0 16 0 0 0xFFFFFFE0) :
    s.mem.wf ∧ Valid (.aesBlock ⟨0, 0, 0⟩) s ∧ BusAdmits (.aesBlock ⟨0, 0, 0⟩) s := by
  subst hs; exact ⟨by decide, (valid_iff _ _).2 (by decide +kernel), (busAdmits_iff _ _).2 (by decide +kernel)⟩

/-- N = 13, the longest payload of L = 2, and N = 7 with nothing to encrypt. -/
theorem witness_CcmEncWritesCiphertextAndTag :
    (∀ s ∈ [busyWith [] (.ccmEnc ⟨13, 16, 0⟩) 0x1000 0xFFFF 0x1000 0xFFFF 0x20000,
        busyWith [] (.ccmEnc ⟨13, 16, 0⟩) 0 0 0xFFFFFFFF 0 0xFFFFFFF0], s.mem.wf ∧
      Valid (.ccmEnc ⟨13, 16, 0⟩) s ∧ BusAdmits (.ccmEnc ⟨13, 16, 0⟩) s) ∧
    (Instr.ccmEnc ⟨7, 4, 0⟩).WellFormed := by
  simp only [valid_iff, busAdmits_iff]; decide +kernel

/-- A CCM_DEC of an empty payload, whose four bytes of input are the tag or are not. -/
def decState (ru : Bool) (input : List Byte) : State :=
  let s := busyWith [] (.ccmDec ⟨13, 4, 0⟩) 0x1000 4 0 0 0x1000
  { s with lat := { s.lat with releaseUnauth := ru }, mem := writeBytes [] 0x1000 input }

/-- The tag of the empty payload under the zero key and nonce. -/
def emptyTag : List Byte := ccmEnc Quad.zero.bytes (Quad.zero.bytes.take 13) [] [] 4

theorem witness_CcmDecReleasesOrWithholdsThePayload :
    (∀ ru ∈ [true, false], ∀ input ∈ [emptyTag, [0, 0, 0, 0]], (decState ru input).mem.wf ∧
      Valid (.ccmDec ⟨13, 4, 0⟩) (decState ru input) ∧ BusAdmits (.ccmDec ⟨13, 4, 0⟩) (decState ru input) ∧
      (decState ru input).lat.releaseUnauth = ru) ∧
    ccmDec Quad.zero.bytes (Quad.zero.bytes.take 13) [] emptyTag 4 = ([], true) ∧
    ccmDec Quad.zero.bytes (Quad.zero.bytes.take 13) [] [0, 0, 0, 0] 4 = ([], false) := by
  simp only [valid_iff, busAdmits_iff]; decide +kernel

theorem witness_MmoHashWritesTheDigest (s : State)
    (hs : s = busyWith [] (.mmoHash ⟨0, 0, 0⟩) 0xFFFFFFFF 1 0 0 0xFFFFFFEF) :
    s.mem.wf ∧ Valid (.mmoHash ⟨0, 0, 0⟩) s ∧ BusAdmits (.mmoHash ⟨0, 0, 0⟩) s := by
  subst hs; exact ⟨by decide, (valid_iff _ _).2 (by decide +kernel), (busAdmits_iff _ _).2 (by decide +kernel)⟩

theorem witness_HmacMmoWritesTheDigest (s : State) (hs : s = busyWith [] (.hmacMmo ⟨0, 0, 0⟩) 0 0 0 0 0) :
    s.mem.wf ∧ Valid (.hmacMmo ⟨0, 0, 0⟩) s ∧ BusAdmits (.hmacMmo ⟨0, 0, 0⟩) s := by
  subst hs; exact ⟨by decide, (valid_iff _ _).2 (by decide +kernel), (busAdmits_iff _ _).2 (by decide +kernel)⟩

/-- A command that completes, and the addresses next to its output region. -/
def aesBusy : State := busyWith [] (.aesBlock ⟨0, 0, 0⟩) 0x1000 16 0 0 0x1010

theorem aesBusy_valid : Valid (.aesBlock ⟨0, 0, 0⟩) aesBusy := (valid_iff _ _).2 (by decide +kernel)
theorem aesBusy_busAdmits : BusAdmits (.aesBlock ⟨0, 0, 0⟩) aesBusy := (busAdmits_iff _ _).2 (by decide +kernel)

theorem witness_CommandChangesOnlyItsOutputAndStatus : aesBusy.mem.wf ∧
    (∃ t, exec (.aesBlock ⟨0, 0, 0⟩) aesBusy = .next t) ∧
    ¬ inRegion (outputRegion (.aesBlock ⟨0, 0, 0⟩) aesBusy.lat) 0x100F ∧
    ¬ inRegion (outputRegion (.aesBlock ⟨0, 0, 0⟩) aesBusy.lat) 0x1020 :=
  ⟨by decide, ⟨_, exec_of_valid aesBusy_valid aesBusy_busAdmits⟩, by decide, by decide⟩

theorem witness_IllegalFieldsFailFirst : ¬ (⟨0, 1, 0⟩ : Fields).Zero ∧ (⟨7, 4, 1⟩ : Fields).rsvd ≠ 0 ∧
    (∀ n ∈ [6, 14], (⟨n, 4, 0⟩ : Fields).rsvd = 0 ∧ ¬ (⟨n, 4, 0⟩ : Fields).LegalNonce) ∧
    (∀ n ∈ [7, 13], ∀ m ∈ [0, 3, 5, 15, 17], (⟨n, m, 0⟩ : Fields).rsvd = 0 ∧ (⟨n, m, 0⟩ : Fields).LegalNonce ∧
      ¬ (⟨n, m, 0⟩ : Fields).LegalMac) := by decide

/-- 95_test_vectors.md section 3.7. -/
theorem witness_WrongLengthFailsNext : (⟨0, 0, 0⟩ : Fields).Zero ∧ (⟨13, 8, 0⟩ : Fields).LegalCcm ∧
    (15#32).toNat ≠ 16 ∧ (17#32).toNat ≠ 16 ∧ 2 ^ (8 * (15 - (13#4).toNat)) ≤ (0x10000#32).toNat ∧
    (7#32).toNat < (8#5).toNat ∧ 2 ^ (8 * (15 - (13#4).toNat)) ≤ (0x10008#32).toNat - (8#5).toNat := by
  refine ⟨by decide, by decide, by decide, by decide, by simp, by decide, by simp⟩

/-- The input region of one, the output region of the other, wraps by one byte. -/
theorem witness_WrappingRegionFailsNext :
    let i := Instr.aesBlock ⟨0, 0, 0⟩
    let l := (busyWith [] i 0xFFFFFFF1 16 0 0 0x2000).lat
    let l' := (busyWith [] i 0x1000 16 0 0 0xFFFFFFF1).lat
    i.WellFormed ∧ LengthLegal i l ∧ LengthLegal i l' ∧ (∃ r ∈ regions i l, r.len > 0 ∧ r.base + r.len > 2 ^ 32) ∧
      ∃ r ∈ regions i l', r.len > 0 ∧ r.base + r.len > 2 ^ 32 :=
  ⟨by decide, by simp [LengthLegal, busyWith, busyOn], by simp [LengthLegal, busyWith, busyOn],
    ⟨⟨0xFFFFFFF1, 16⟩, by decide, by decide⟩, ⟨⟨0xFFFFFFF1, 16⟩, by decide, by decide⟩⟩

/-- The output shares one byte with the end of the input, or with its start. -/
theorem witness_SharedByteFailsNext (d : Word) (a : Nat) (h : (d, a) ∈ [(0x100F#32, 0x100F), (0x0FF1#32, 0x1000)]) :
    let i := Instr.aesBlock ⟨0, 0, 0⟩
    let l := (busyWith [] i 0x1000 16 0 0 d).lat
    i.WellFormed ∧ LengthLegal i l ∧ InAddressSpace i l ∧
      ∃ r ∈ inputRegions i l, inRegion r a ∧ inRegion (outputRegion i l) a := by
  simp only [List.mem_cons, Prod.mk.injEq, List.not_mem_nil, or_false] at h
  rcases h with ⟨rfl, rfl⟩ | ⟨rfl, rfl⟩ <;>
  exact ⟨by decide, by simp [LengthLegal, busyWith, busyOn], (rangeError_eq_none_iff _ _).1 (by decide +kernel),
    ⟨⟨0x1000, 16⟩, by decide, by decide, by decide⟩⟩

/-- 95_test_vectors.md section 6.4: BusOK(0x1005, read) is false. -/
def hole : Platform := { Platform.default with busHoles := [⟨⟨0x1005, 1⟩, .read⟩] }

theorem witness_BusErrorEndsAValidCommand :
    (busyOn hole [] (.mmoHash ⟨0, 0, 0⟩) 0x1000 6 0 0 0x2000).mem.wf ∧
    Valid (.mmoHash ⟨0, 0, 0⟩) (busyOn hole [] (.mmoHash ⟨0, 0, 0⟩) 0x1000 6 0 0 0x2000) ∧
    ¬ BusAdmits (.mmoHash ⟨0, 0, 0⟩) (busyOn hole [] (.mmoHash ⟨0, 0, 0⟩) 0x1000 6 0 0 0x2000) ∧
    Valid (.mmoHash ⟨0, 0, 0⟩) (busyOn hole [] (.mmoHash ⟨0, 0, 0⟩) 0x1000 5 0 0 0x2000) ∧
    BusAdmits (.mmoHash ⟨0, 0, 0⟩) (busyOn hole [] (.mmoHash ⟨0, 0, 0⟩) 0x1000 5 0 0 0x2000) := by
  simp only [valid_iff, busAdmits_iff]; decide +kernel

/-- A platform with a device FIFO at 0x3000. -/
def device : Platform := { Platform.default with sideEffects := [⟨0x3000, 4⟩] }

theorem witness_RegionOutsideOrdinaryMemoryIsRefused (src : Word)
    (h : src = 0x400000FF ∨ src = 0x3FFFFFFF ∨ src = 0x2FFF ∨ src = 0x3003) :
    let i := Instr.mmoHash ⟨0, 0, 0⟩
    let s := busyOn device [] i src 2 0 0 0x2000
    i.WellFormed ∧ LengthLegal i s.lat ∧ InAddressSpace i s.lat ∧ Apart i s.lat ∧
      (src = 0x400000FF ∨ src = 0x3FFFFFFF → ∃ r ∈ regions i s.lat, ∃ a, inRegion r a ∧ inRegion (window s.platform) a) ∧
      (src = 0x2FFF ∨ src = 0x3003 → (∀ r ∈ regions i s.lat, ∀ a, inRegion r a → ¬ inRegion (window s.platform) a) ∧
        ∃ r ∈ regions i s.lat, ∃ a, inRegion r a ∧ ∃ d ∈ s.platform.sideEffects, inRegion d a) := by
  have hv (i l) := (validate_passes_iff i l).1
  rcases h with rfl | rfl | rfl | rfl
  all_goals
    refine ⟨by decide, ((hv _ _ (by decide +kernel)).2).1, ((hv _ _ (by decide +kernel)).2.2).1,
      ((hv _ _ (by decide +kernel)).2.2).2, ?_, ?_⟩
  · exact fun _ => (platformRefusal_eq_window_iff _ _ _).1 (by decide +kernel)
  · exact fun h => absurd h (by decide)
  · exact fun _ => (platformRefusal_eq_window_iff _ _ _).1 (by decide +kernel)
  · exact fun h => absurd h (by decide)
  · exact fun h => absurd h (by decide)
  · intro _
    obtain ⟨h1, h2⟩ := (platformRefusal_eq_sideEffects_iff _ _ _).1
      (show platformRefusal device (.mmoHash ⟨0, 0, 0⟩) (busyOn device [] (.mmoHash ⟨0, 0, 0⟩) 0x2FFF 2 0 0 0x2000).lat =
        some .regionWithSideEffects by decide +kernel)
    exact ⟨fun r hr a ha hw => h1 ⟨r, hr, a, ha, hw⟩, h2⟩
  · exact fun h => absurd h (by decide)
  · intro _
    obtain ⟨h1, h2⟩ := (platformRefusal_eq_sideEffects_iff _ _ _).1
      (show platformRefusal device (.mmoHash ⟨0, 0, 0⟩) (busyOn device [] (.mmoHash ⟨0, 0, 0⟩) 0x3003 2 0 0 0x2000).lat =
        some .regionWithSideEffects by decide +kernel)
    exact ⟨fun r hr a ha hw => h1 ⟨r, hr, a, ha, hw⟩, h2⟩

/-- An error of Validate, and a bus error. -/
def errorBusy (e : ErrorCode) : State :=
  match e with
  | .busError => busyOn hole [] (.mmoHash ⟨0, 0, 0⟩) 0x1000 6 0 0 0x2000
  | _ => busyWith [] (.aesBlock ⟨0, 0, 0⟩) 0x1000 15 0 0 0x2000

theorem errorBusy_badLength : engineTurn (errorBusy .badLength) = .next (raiseError .badLength (errorBusy .badLength)) :=
  exec_raise (i := .aesBlock ⟨0, 0, 0⟩) (by decide +kernel)

theorem witness_ErrorsArePrecise :
    (∃ t, engineTurn (errorBusy .badLength) = .next t ∧ t.status.err = true ∧ t.status.errCode ≠ .busError) ∧
    (∃ t, engineTurn (errorBusy .busError) = .next t ∧ t.status.err = true ∧ t.status.errCode = .busError) ∧
    ∀ e, (errorBusy e).mem.wf ∧ (errorBusy e).phase = .busy :=
  ⟨⟨_, errorBusy_badLength, rfl, by decide⟩, ⟨busErrorCompletion (.mmoHash ⟨0, 0, 0⟩) (errorBusy .busError), rfl, rfl, rfl⟩,
    by intro e; cases e <;> exact ⟨by decide, rfl⟩⟩

theorem aesBusy_safe (ts : List Turn) : turnIsSafe .engine { aesBusy with schedule := ts } := by
  intro i hi _
  cases hi
  exact ((valid_iff _ _).1 aesBusy_valid).2

theorem witness_ExecuteStepEndsInExactlyOneCompletion : aesBusy.phase = .busy ∧ turnIsSafe .engine aesBusy ∧
    (∃ t, engineTurn aesBusy = .next t) ∧ (raiseError .badLength (errorBusy .badLength)).status.err = true :=
  ⟨rfl, aesBusy_safe [], engineTurn_safe rfl (aesBusy_safe []), rfl⟩

theorem witness_StepKeepsTheInvariant : aesBusy.Inv ∧ ∃ t, step aesBusy = .next t :=
  ⟨⟨by decide, ⟨by decide, by decide, by decide⟩, fun _ => ⟨rfl, rfl, rfl, rfl, rfl⟩, fun _ => rfl⟩,
    engineTurn_safe rfl (aesBusy_safe [])⟩

theorem witness_OnlyCompletionOrResetEndsBusy (t : Turn) (h : t = .engine ∨ t = .reset) :
    ∃ u, step { errorBusy .badLength with schedule := [t] } = .next u ∧ u.phase = .idle ∧
      ({ errorBusy .badLength with schedule := [t] } : State).phase = .busy := by
  rcases h with rfl | rfl
  · exact ⟨_, rfl, rfl, rfl⟩
  · exact ⟨_, rfl, rfl, rfl⟩

/-- The same latch, memory, platform and draws, with other registers and flags. -/
def otherFlags : State := { aesBusy with srcLen := 1, status := { aesBusy.status with cmdIgnored := true } }

theorem witness_ResultIgnoresHistoryAndFlags : aesBusy.lat = otherFlags.lat ∧ aesBusy.mem = otherFlags.mem ∧
    aesBusy.platform = otherFlags.platform ∧ aesBusy.draws = otherFlags.draws ∧
    ∃ t, exec (.aesBlock ⟨0, 0, 0⟩) aesBusy = .next t :=
  ⟨rfl, rfl, rfl, rfl, _, exec_of_valid aesBusy_valid aesBusy_busAdmits⟩

/-- Host turns that end in each of the three outcomes. -/
theorem witness_HostNeverSeesTheKey :
    (∃ t, step (State.resetOn device [asmRd 0x10]) = .next t) ∧
    step (State.resetOn device [.host (.memRead 0x40000000)]) = .fault .registerPortError ∧
    step (State.resetOn device [.host (.memRead 0x3000)]) = .refused .hostAccessToDevice := ⟨⟨_, rfl⟩, rfl, rfl⟩

theorem witness_RegisterWriteDoesNotReachTheRunningCommand : aesBusy.phase = .busy ∧
    ∀ off ∈ [0x00#8, 0x0C, 0x40, 0xFC], off.toNat % 4 = 0 ∧ off ≠ 0x04 ∧ off ≠ 0x08 := ⟨rfl, by decide⟩

theorem witness_PollingHostSeesTheCommandEnd :
    ({ aesBusy with schedule := [asmRd 0x08, asmRd 0x08] } : State).phase = .busy ∧
    (∀ t ∈ [asmRd 0x08, asmRd 0x08], isPoll t = true) ∧
    turnIsSafe .engine { aesBusy with schedule := [asmRd 0x08, asmRd 0x08] } := ⟨rfl, by decide, aesBusy_safe _⟩

theorem witness_IdleEngineHoldsItsState : State.reset.phase = .idle ∧ State.reset.schedule = [] ∧
    (State.resetOn Platform.default [.engine]).schedule = .engine :: [] := ⟨rfl, rfl, rfl⟩

/-- Every named offset, and the first and last unnamed ones. -/
def offsets : List (BitVec 8) :=
  [0x00, 0x04, 0x08, 0x0C, 0x10, 0x14, 0x18, 0x1C, 0x20, 0x24, 0x28, 0x2C, 0x30, 0x34, 0x38, 0x3C, 0x40, 0x44, 0xFC]

theorem witness_RegisterReadReturnsItsValue : ∀ off ∈ offsets, off.toNat % 4 = 0 ∧
    (State.resetOn Platform.default [asmRd off]).schedule = asmRd off :: [] := by decide

theorem witness_RegisterWriteTakesItsValue : ∀ off ∈ offsets, off.toNat % 4 = 0 ∧
    (State.resetOn Platform.default [asmWr off 0xFFFFFFFF]).schedule = asmWr off 0xFFFFFFFF :: [] := by decide

theorem witness_NarrowOrMisalignedAccessFaults :
    (∀ x ∈ [(AccessWidth.byte, 0x00#8), (.half, 0x40), (.word, 0x01), (.word, 0xFF)], x.1 ≠ .word ∨ x.2.toNat % 4 ≠ 0) ∧
    (State.resetOn Platform.default [.host (.regRead .word 0xFF)]).schedule = .host (.regRead .word 0xFF) :: [] ∧
    (State.resetOn Platform.default [.host (.regWrite .half 0x40 0)]).schedule = .host (.regWrite .half 0x40 0) :: [] :=
  ⟨by decide, rfl, rfl⟩

theorem witness_StatusWriteClearsExactlyItsBits :
    ({ aesBusy with schedule := [asmWr 0x08 0x16] } : State).schedule = asmWr 0x08 0x16 :: [] := rfl

theorem witness_CmdWriteWhileIdleIsAccepted : (State.resetOn Platform.default [asmWr 0x04 0xFFFFFFFF]).phase = .idle ∧
    (State.resetOn Platform.default [asmWr 0x04 0xFFFFFFFF]).schedule = asmWr 0x04 0xFFFFFFFF :: [] := ⟨rfl, rfl⟩

theorem witness_CmdWriteWhileBusyIsIgnored : ({ aesBusy with schedule := [asmWr 0x04 1] } : State).phase = .busy ∧
    ({ aesBusy with schedule := [asmWr 0x04 1] } : State).schedule = asmWr 0x04 1 :: [] := ⟨rfl, rfl⟩

theorem witness_SetKeyAndSetNonceFillTheLanes : key40.length = 16 ∧
    (State.resetOn Platform.default (asmSetKey key40)).schedule = asmSetKey key40 ++ [] ∧
    (key40.take 13).length ≤ 16 ∧ key40.length ≤ 16 ∧ ([] : List Byte).length ≤ 16 ∧
    (State.resetOn Platform.default (asmSetNonce (key40.take 13))).schedule = asmSetNonce (key40.take 13) ++ [] := by
  decide

theorem witness_ResetClearsTheEngine : ({ aesBusy with schedule := [.reset] } : State).mem.wf ∧
    ({ aesBusy with schedule := [.reset] } : State).schedule = .reset :: [] ∧
    (∀ a ∈ [0x100F, 0x1020], ∀ i, decode aesBusy.lat.cmd = .ok i → ¬ inRegion (outputRegion i aesBusy.lat) a) ∧
    (State.resetOn Platform.default [.reset]).phase = .idle := by
  refine ⟨by decide, rfl, ?_, rfl⟩
  intro a ha i hi
  cases hi
  revert a; decide

/-- The first and last bytes of each region, and the bytes next to the output region. -/
theorem witness_AccessesToRunningBuffers : aesBusy.phase = .busy ∧
    decode aesBusy.lat.cmd = .ok (.aesBlock ⟨0, 0, 0⟩) ∧
    (∀ a ∈ [0x1000, 0x100F, 0x1010, 0x101F, 0x1020], ¬ inRegion (window aesBusy.platform) a ∧
      ∀ d ∈ aesBusy.platform.sideEffects, ¬ inRegion d a) ∧
    (∀ a ∈ [0x1000, 0x100F, 0x1010, 0x101F], ∃ r ∈ regions (.aesBlock ⟨0, 0, 0⟩) aesBusy.lat, inRegion r a) ∧
    (∀ a ∈ [0x1010, 0x101F], inRegion (outputRegion (.aesBlock ⟨0, 0, 0⟩) aesBusy.lat) a) ∧
    (∀ a ∈ [0x100F, 0x1020], ¬ inRegion (outputRegion (.aesBlock ⟨0, 0, 0⟩) aesBusy.lat) a) :=
  ⟨rfl, rfl, by decide, by decide, by decide, by decide⟩

/-- IDLE, at the ends of the address space and next to the register window; and BUSY, next to the regions of the command. -/
theorem witness_StoreFenceLoadOutsideRunningBuffers (s : State) (a : Word)
    (h : s = State.reset ∧ (a = 0 ∨ a = 0x3FFFFFFF ∨ a = 0x40000100 ∨ a = 0xFFFFFFFF) ∨
      s = aesBusy ∧ (a = 0x0FFF ∨ a = 0x1020)) :
    s.mem.wf ∧ (s.phase = .busy → ∀ i, decode s.lat.cmd = .ok i → ∀ r ∈ regions i s.lat, ¬ inRegion r a.toNat) ∧
    ¬ inRegion (window s.platform) a.toNat ∧ ∀ d ∈ s.platform.sideEffects, ¬ inRegion d a.toNat := by
  rcases h with ⟨rfl, rfl | rfl | rfl | rfl⟩ | ⟨rfl, rfl | rfl⟩ <;>
    refine ⟨by decide, fun hb i hi => ?_, by decide, by decide⟩ <;> cases hb <;> cases hi <;> decide

theorem witness_CoincidentStatusWriteClearsTheCompletion :
    [.engine, asmWr 0x08 0x06] ∈ (Coincidence.statusWriteWithCompletion 0x06).orders (errorBusy .badLength).platform ∧ (0x06#32).getLsbD 1 = true ∧
    (0x06#32).getLsbD 2 = true ∧ ({ errorBusy .badLength with schedule := [.engine, asmWr 0x08 0x06] } : State).phase = .busy ∧
    ∃ t, Sys2Proof.core.run 2 { errorBusy .badLength with schedule := [.engine, asmWr 0x08 0x06] } = .next t :=
  ⟨by decide, rfl, rfl, rfl, _, rfl⟩

theorem witness_CoincidentCmdWriteGoesEitherWay : aesBusy.phase = .busy ∧ turnIsSafe .engine aesBusy :=
  ⟨rfl, aesBusy_safe []⟩

/-- The words before w[4] and w[40] have four bytes each. -/
theorem witness_KeyExpansionFollowsTheRecurrence : key40.length = 16 ∧
    (keyWords key40).getD 3 [] = [0x4c, 0x4d, 0x4e, 0x4f] ∧ ((keyWords key40).getD 39 []).length = 4 ∧
    40 % 4 = 0 ∧ 43 % 4 ≠ 0 := by decide +kernel

theorem witness_CcmDecryptsWhatItEncrypts : key40.length = 16 ∧
    ∀ n ∈ [7, 13], 7 ≤ (key40.take n).length ∧ (key40.take n).length ≤ 13 := by decide

/-- A CCM_ENC, and the CCM_DEC that reads its output. -/
def encBusy : State := busyWith [] (.ccmEnc ⟨7, 4, 0⟩) 0x1000 1 0x1100 1 0x2000

/-- The state it leaves. -/
def encDone : State := finish (.ccmEnc ⟨7, 4, 0⟩) (transformOf (.ccmEnc ⟨7, 4, 0⟩) encBusy.lat encBusy.mem) encBusy

/-- The state in which the CCM_DEC of that output runs. -/
def decBusy : State :=
  { encDone with
    phase := .busy
    lat := { encBusy.lat with
      cmd := encode (.ccmDec ⟨7, 4, 0⟩), srcAddr := 0x2000, srcLen := encDone.outLen, dstAddr := 0x3000 } }

theorem encBusy_valid : Valid (.ccmEnc ⟨7, 4, 0⟩) encBusy ∧ BusAdmits (.ccmEnc ⟨7, 4, 0⟩) encBusy := by
  simp only [valid_iff, busAdmits_iff]; decide +kernel

theorem decBusy_valid : Valid (.ccmDec ⟨7, 4, 0⟩) decBusy ∧ BusAdmits (.ccmDec ⟨7, 4, 0⟩) decBusy := by
  simp only [valid_iff, busAdmits_iff]; decide +kernel

theorem witness_EngineDecryptsWhatItEncrypted : encBusy.mem.wf ∧ Valid (.ccmEnc ⟨7, 4, 0⟩) encBusy ∧
    BusAdmits (.ccmEnc ⟨7, 4, 0⟩) encBusy ∧ exec (.ccmEnc ⟨7, 4, 0⟩) encBusy = .next encDone ∧
    decBusy.mem = encDone.mem ∧ decBusy.lat.key = encBusy.lat.key ∧ decBusy.lat.nonce = encBusy.lat.nonce ∧
    decBusy.lat.adAddr = encBusy.lat.adAddr ∧ decBusy.lat.adLen = encBusy.lat.adLen ∧
    decBusy.lat.srcAddr = encBusy.lat.dstAddr ∧ decBusy.lat.srcLen = encDone.outLen ∧
    Valid (.ccmDec ⟨7, 4, 0⟩) decBusy ∧ BusAdmits (.ccmDec ⟨7, 4, 0⟩) decBusy :=
  ⟨by decide, encBusy_valid.1, encBusy_valid.2, exec_of_valid encBusy_valid.1 encBusy_valid.2,
    by simp only [decBusy], rfl, rfl, rfl, rfl, rfl, rfl, decBusy_valid.1, decBusy_valid.2⟩

/-- N = 13 with the longest payload, N = 7 with the longest a register can hold, and the counters up to the last. -/
theorem witness_CounterBlocksNeverRepeat :
    (7 ≤ (key40.take 13).length ∧ (key40.take 13).length ≤ 13 ∧ 0xFFFF < 2 ^ (8 * (15 - (key40.take 13).length))) ∧
    (7 ≤ (key40.take 7).length ∧ (key40.take 7).length ≤ 13 ∧ 0xFFFFFFFF < 2 ^ (8 * (15 - (key40.take 7).length))) ∧
    0 ≤ ceil16 0xFFFF ∧ 0x1000 ≤ ceil16 0xFFFF ∧ 16 ∈ [4, 6, 8, 10, 12, 14, 16] := by decide +kernel

theorem witness_MmoPaddingIsAsTheTableSays : 1 < 2 ∧ 13 + 2 < (mmoPad [0xc0]).length := by decide

theorem witness_WorkIsTheNumberOfBlocks : (⟨7, 4, 0⟩ : Fields).LegalNonce ∧ (⟨13, 16, 0⟩ : Fields).LegalNonce := by
  decide

/-- The columns of a state, the first and the last. -/
theorem witness_RoundStepsActOnEachByte : key40.length = 16 ∧
    (key40.drop (4 * 0)).take 4 = [0x40, 0x41, 0x42, 0x43] ∧ (key40.drop (4 * 3)).take 4 = [0x4c, 0x4d, 0x4e, 0x4f] := by
  decide

/-- The lengths of nonce and tag at both ends, with and without associated data, and the two forms of its header. -/
theorem witness_CcmFormatLaysOutTheStream :
    (∀ n ∈ [7, 13], 7 ≤ (key40.take n).length ∧ (key40.take n).length ≤ 13) ∧
    (∀ m ∈ [4, 16], m ∈ [4, 6, 8, 10, 12, 14, 16]) ∧ ([] : List Byte).length = 0 ∧ 0 < key40.length ∧
    (zeros 0xFEFF).length < 0xFF00 ∧ 0xFF00 ≤ (zeros 0xFF00).length ∧ (zeros 0xFF00).length < 2 ^ 32 :=
  ⟨by decide, by decide, rfl, by decide, by simp, by simp, by simp⟩

theorem witness_Aes128RunsTenRounds : key40.length = 16 ∧ 1 ≤ 9 := by decide

theorem witness_CcmMacChainsTheBlocks : key40.length = 16 ∧
    (∀ n ∈ [7, 13], 7 ≤ (key40.take n).length ∧ (key40.take n).length ≤ 13) ∧
    (∀ m ∈ [4, 16], m ∈ [4, 6, 8, 10, 12, 14, 16]) ∧ 0 < (ccmFormat (key40.take 13) [] [] 4).length / 16 := by decide

/-- Payload bytes at both ends of the first keystream block, and the last byte of the longest tag. -/
theorem witness_CcmEncryptsByteByByte : key40.length = 16 ∧
    (∀ n ∈ [7, 13], 7 ≤ (key40.take n).length ∧ (key40.take n).length ≤ 13) ∧
    (∀ j ∈ [0, 15, 16], j < (zeros 17).length) ∧ 16 ∈ [4, 6, 8, 10, 12, 14, 16] ∧ 15 < 16 := by decide

/-- An input that is the tag alone, and one with a payload. -/
theorem witness_CcmDecryptsByteByByte : key40.length = 16 ∧
    (∀ n ∈ [7, 13], 7 ≤ (key40.take n).length ∧ (key40.take n).length ≤ 13) ∧
    16 ∈ [4, 6, 8, 10, 12, 14, 16] ∧ 16 ≤ key40.length ∧ 16 ≤ (zeros 33).length ∧ 16 < (zeros 33).length - 16 := by
  decide

theorem witness_MmoHashChainsTheBlocks : 0 < (mmoPad []).length / 16 ∧ 1 < (mmoPad (zeros 14)).length / 16 := by decide

/-- Accesses of every kind, at both ends of the register window, and of the widths and offsets that fault without reset. -/
theorem witness_ResetWinsOverCoincidentEvents (a : Word) (h : a = 0x40000000 ∨ a = 0x400000FF) :
    inRegion (window aesBusy.platform) a.toNat ∧
    [.reset] ∈ (Coincidence.resetWithAccess (.memRead a)).orders aesBusy.platform ∧
    [.reset] ∈ (Coincidence.resetWithAccess (.memWrite a 1)).orders aesBusy.platform ∧
    [.reset] ∈ (Coincidence.resetWithAccess (.regRead .byte 0x01)).orders aesBusy.platform ∧
    [.reset] ∈ Coincidence.resetWithCompletion.orders aesBusy.platform := by
  rcases h with rfl | rfl <;> decide

/-- The addresses next to the register window, and both orders. -/
theorem witness_StoreWithResetIsKept (a : Word) (h : a = 0x3FFFFFFF ∨ a = 0x40000100) :
    State.reset.mem.wf ∧ State.reset.phase = .idle ∧ ¬ inRegion (window State.reset.platform) a.toNat ∧
    (∀ d ∈ State.reset.platform.sideEffects, ¬ inRegion d a.toNat) ∧
    (Coincidence.resetWithAccess (.memWrite a 1)).orders State.reset.platform =
      [[.host (.memWrite a 1), .reset], [.reset, .host (.memWrite a 1)]] := by
  rcases h with rfl | rfl <;> decide

end Sys2Proof.Tests
end

/-! # Turns and the invariant (10_state.md)

What a step, a host's turn and a register write can do, said once; the invariant, turn by turn; when BUSY ends. -/

namespace Sys2Proof.Machine

/-! ## One step is one turn -/

theorem step_nil {s : State} (hs : s.schedule = []) : step s = engineTurn s := by
  simp [step, hs]

theorem step_cons {s : State} {turn : Turn} {rest : List Turn} (hs : s.schedule = turn :: rest) :
    step s = takeTurn turn { s with schedule := rest } := by
  simp [step, hs]

theorem step_engine {s : State} {rest : List Turn} (hs : s.schedule = .engine :: rest) :
    step s = engineTurn { s with schedule := rest } := step_cons hs

/-- A turn was taken: the engine's when none is listed, the first of the schedule otherwise. -/
theorem step_next {s t : State} (h : step s = .next t) :
    (s.schedule = [] ∧ engineTurn s = .next t) ∨
    ∃ turn rest, s.schedule = turn :: rest ∧ takeTurn turn { s with schedule := rest } = .next t := by
  cases hs : s.schedule with
  | nil => exact .inl ⟨rfl, step_nil hs ▸ h⟩
  | cons turn rest => exact .inr ⟨turn, rest, rfl, step_cons hs ▸ h⟩

theorem engineTurn_idle {s : State} (h : s.phase = .idle) : engineTurn s = .next s := by
  simp [engineTurn, h]

/-- A step that stops ends a run. -/
theorem core_run_stop (M : Host.Core) {s : M.State} {o : Host.Outcome M.State M.Fault M.Refusal} (h : M.step s = o)
    (hstop : ∀ t, o ≠ .next t) (n : Nat) : M.run (n + 1) s = o := by
  rw [Host.Core.run, h]
  cases o with
  | next t => exact absurd rfl (hstop t)
  | fault r => rfl
  | refused r => rfl

theorem run_stop {s : State} {o : Host.Outcome State Fault Refusal} (h : step s = o) (hstop : ∀ t, o ≠ .next t)
    (n : Nat) : Sys2Proof.core.run (n + 1) s = o :=
  core_run_stop Sys2Proof.core h hstop n

/-! ## The offsets of the register map (10_state.md R36) -/

/-- No register stands at or above 0x44. -/
theorem regAt_eq_none {off : BitVec 8} (h : 0x44 ≤ off.toNat) : regAt off = none := by
  have hlow : ∀ p ∈ registerMap, p.1.toNat < 0x44 := by decide
  refine List.lookup_eq_none_iff.2 fun p hp => ?_
  have := hlow p hp
  simpa using fun he : off = p.1 => by subst he; omega

/-- CMD stands at 0x04 and STATUS at 0x08 alone. -/
theorem regAt_ne_cmd_status {off : BitVec 8} {r : Reg} (h : regAt off = some r) (hc : off ≠ 0x04) (hs : off ≠ 0x08) :
    r ≠ .cmd ∧ r ≠ .status := by
  have hmap : ∀ p ∈ registerMap, (p.2 = .cmd → p.1 = 0x04) ∧ (p.2 = .status → p.1 = 0x08) := by decide
  have hmem : (off, r) ∈ registerMap := by
    obtain ⟨l₁, l₂, he, -⟩ := List.lookup_eq_some_iff.1 h
    simp [he]
  exact ⟨fun he => hc ((hmap _ hmem).1 he), fun he => hs ((hmap _ hmem).2 he)⟩

/-! ## Register writes (10_state.md R54) -/

theorem writeOffset_named {off : BitVec 8} {r : Reg} (h : regAt off = some r) (v : Word) (s : State) :
    writeOffset off v s = writeReg r v s := by
  simp [writeOffset, h]

theorem writeOffset_unnamed {off : BitVec 8} (h : 0x44 ≤ off.toNat) (v : Word) (s : State) : writeOffset off v s = s := by
  simp [writeOffset, regAt_eq_none h]

theorem writeOffset_cmd (v : Word) (s : State) : writeOffset 0x04 v s = writeCmd v s := rfl

theorem writeOffset_status (v : Word) (s : State) : writeOffset 0x08 v s = acknowledge v s := rfl

theorem writeCmd_idle {s : State} (h : s.phase = .idle) (v : Word) : writeCmd v s = accept v s := by
  simp [writeCmd, h]

theorem writeCmd_busy {s : State} (h : s.phase = .busy) (v : Word) : writeCmd v s = ignoreCmd s := by
  simp [writeCmd, h]

/-- A write at any offset but those of CMD and STATUS reaches CTRL and the parameter registers alone. -/
theorem writeOffset_frame {off : BitVec 8} (hc : off ≠ 0x04) (hs : off ≠ 0x08) (v : Word) (s : State) :
    writeOffset off v s = { writeOffset off v s with
      status := s.status, outLen := s.outLen, phase := s.phase, lat := s.lat, mem := s.mem, platform := s.platform
      schedule := s.schedule, hostValue := s.hostValue, draws := s.draws } := by
  unfold writeOffset
  cases hr : regAt off with
  | none => rfl
  | some r =>
    obtain ⟨hcmd, hstatus⟩ := regAt_ne_cmd_status hr hc hs
    cases r with
    | cmd => exact absurd rfl hcmd
    | status => exact absurd rfl hstatus
    | _ => rfl

/-- A register write reads no schedule, and keeps it. -/
theorem writeOffset_schedule (off : BitVec 8) (v : Word) (s : State) (turns : List Turn) :
    writeOffset off v { s with schedule := turns } = { writeOffset off v s with schedule := turns } := by
  have hcmd : writeCmd v { s with schedule := turns } = { writeCmd v s with schedule := turns } := by
    obtain ⟨_, _, _, _, _, _, _, _, _, _, phase, _⟩ := s
    cases phase <;> rfl
  unfold writeOffset
  cases regAt off with
  | none => rfl
  | some r =>
    cases r with
    | cmd => exact hcmd
    | _ => rfl

/-- The state after register writes, in order. -/
def applyWrites (ws : List (BitVec 8 × Word)) (s : State) : State := ws.foldl (fun u w => writeOffset w.1 w.2 u) s

theorem applyWrites_cons (w : BitVec 8 × Word) (ws : List (BitVec 8 × Word)) (s : State) :
    applyWrites (w :: ws) s = applyWrites ws (writeOffset w.1 w.2 s) := rfl

/-- Aligned register writes at the head of the schedule, in order. -/
theorem run_writes (ws : List (BitVec 8 × Word)) (ha : ∀ w ∈ ws, w.1.toNat % 4 = 0) {s : State} {rest : List Turn}
    (hs : s.schedule = ws.map (fun w => asmWr w.1 w.2) ++ rest) :
    Sys2Proof.core.run ws.length s = .next (applyWrites ws { s with schedule := rest }) := by
  induction ws generalizing s with
  | nil => subst hs; rfl
  | cons w ws ih =>
    rw [List.length_cons, run_next (step_write (ha w (by simp)) hs), writeOffset_schedule,
      ih (fun u hu => ha u (by simp [hu])) rfl, applyWrites_cons, writeOffset_schedule _ _ s rest]

/-! ## What a host's turn can do -/

/-- t has the memory, STATUS, OUT_LEN and phase of s. -/
structure SameEngine (s t : State) : Prop where
  mem : t.mem = s.mem
  status : t.status = s.status
  outLen : t.outLen = s.outLen
  phase : t.phase = s.phase

theorem writeOffset_sameEngine {off : BitVec 8} (hc : off ≠ 0x04) (hs : off ≠ 0x08) (v : Word) (s : State) :
    SameEngine s (writeOffset off v s) :=
  have h := writeOffset_frame hc hs v s
  ⟨by rw [h], by rw [h], by rw [h], by rw [h]⟩

/-- The next states of a register write: acceptance, an ignored command, an acknowledgement, or a parameter. -/
theorem writeOffset_cases (off : BitVec 8) (v : Word) (s : State) :
    (s.phase = .idle ∧ writeOffset off v s = accept v s) ∨
    (s.phase = .busy ∧ writeOffset off v s = ignoreCmd s) ∨
    writeOffset off v s = acknowledge v s ∨
    SameEngine s (writeOffset off v s) := by
  by_cases hc : off = 0x04
  · subst hc
    rw [writeOffset_cmd]
    cases hp : s.phase with
    | idle => exact .inl ⟨rfl, writeCmd_idle hp v⟩
    | busy => exact .inr (.inl ⟨rfl, writeCmd_busy hp v⟩)
  · by_cases hs : off = 0x08
    · subst hs; exact .inr (.inr (.inl (writeOffset_status v s)))
    · exact .inr (.inr (.inr (writeOffset_sameEngine hc hs v s)))

/-- The next states of a host's turn: those of a register write, a stored byte, or a turn that only reads. -/
theorem hostTurn_next {op : HostOp} {s t : State} (h : hostTurn op s = .next t) :
    (∃ v, s.phase = .idle ∧ t = accept v s) ∨ (s.phase = .busy ∧ t = ignoreCmd s) ∨ (∃ v, t = acknowledge v s) ∨
    (∃ (a : Word) (b : Byte), t = { s with mem := writeByte s.mem a.toNat b }) ∨ SameEngine s t := by
  cases op with
  | regRead width off =>
    simp only [hostTurn, regRead] at h
    split at h <;> cases h
    exact .inr (.inr (.inr (.inr ⟨rfl, rfl, rfl, rfl⟩)))
  | regWrite width off v =>
    simp only [hostTurn, regWrite] at h
    split at h <;> cases h
    rcases writeOffset_cases off v s with ⟨hp, ht⟩ | ⟨hp, ht⟩ | ht | ht
    · exact .inl ⟨v, hp, ht⟩
    · exact .inr (.inl ⟨hp, ht⟩)
    · exact .inr (.inr (.inl ⟨v, ht⟩))
    · exact .inr (.inr (.inr (.inr ht)))
  | memRead a =>
    simp only [hostTurn, memRead] at h
    split_ifs at h
    all_goals
      cases h
      exact .inr (.inr (.inr (.inr ⟨rfl, rfl, rfl, rfl⟩)))
  | memWrite a b =>
    simp only [hostTurn, memWrite] at h
    split_ifs at h
    cases h
    exact .inr (.inr (.inr (.inl ⟨a, b, rfl⟩)))
  | fence =>
    cases h
    exact .inr (.inr (.inr (.inr ⟨rfl, rfl, rfl, rfl⟩)))

/-- No host's turn ends a command. -/
theorem hostTurn_keeps_busy {op : HostOp} {s t : State} (hb : s.phase = .busy) (h : hostTurn op s = .next t) :
    t.phase = .busy := by
  rcases hostTurn_next h with ⟨v, hi, -⟩ | ⟨-, rfl⟩ | ⟨v, rfl⟩ | ⟨a, b, rfl⟩ | he
  · rw [hb] at hi; cases hi
  · exact hb
  · exact hb
  · exact hb
  · exact he.phase.trans hb

/-! ## What reset's turn can do (70_reset_and_hazards.md R320) -/

theorem resetTurn_of_none {s : State} (h : runningCommand s = none) : resetTurn s = resetRegisters s := by
  simp [resetTurn, h]

theorem resetTurn_of_some {s : State} {i : Instr} (h : runningCommand s = some i) : resetTurn s =
    resetRegisters (s.drawRegion (fun a => decide (a < 2 ^ 32)) (outputRegion i s.lat)) := by
  simp [resetTurn, h]

/-! ## The invariant, turn by turn (10_state.md R41, R42) -/

theorem Status.Consistent.zero : Status.zero.Consistent := ⟨by decide, by decide, by decide⟩

theorem Status.Consistent.clear {t : Status} (h : t.Consistent) (v : Word) : (t.clear v).Consistent := by
  obtain ⟨hx, hc, he⟩ := h
  refine ⟨fun ⟨hd, hr⟩ => hx ?_, fun hn => ?_, fun hr => he ?_⟩
  · simp only [Status.clear, Bool.and_eq_true] at hd hr
    exact ⟨hd.1, hr.1⟩
  · obtain ⟨hd, ha⟩ := hc hn
    exact ⟨by simp [Status.clear, hd], ha⟩
  · simp only [Status.clear, Bool.and_eq_true] at hr
    exact hr.1

/-- The invariant speaks of memory, STATUS, OUT_LEN and the phase alone. -/
theorem State.Inv.of_sameEngine {s t : State} (h : s.Inv) (he : SameEngine s t) : t.Inv where
  memory := he.mem ▸ h.memory
  status := he.status ▸ h.status
  busy hp := by
    obtain ⟨hd, hr, ha, hc, ho⟩ := h.busy (he.phase ▸ hp)
    exact ⟨he.status ▸ hd, he.status ▸ hr, he.status ▸ ha, he.status ▸ hc, he.outLen ▸ ho⟩
  errorLength hc := he.outLen.trans (h.errorLength (he.status ▸ hc))

theorem accept_inv {s : State} (hm : s.mem.wf) (v : Word) : (accept v s).Inv where
  memory := hm
  status := ⟨by simp, by simp, by simp⟩
  busy _ := ⟨rfl, rfl, rfl, rfl, rfl⟩
  errorLength _ := rfl

theorem ignoreCmd_inv {s : State} (h : s.Inv) : (ignoreCmd s).Inv where
  memory := h.memory
  status := ⟨h.status.doneXorErr, h.status.codeMeansError, h.status.errHasCode⟩
  busy hp := ⟨(h.busy hp).done, (h.busy hp).err, (h.busy hp).authFail, (h.busy hp).errCode, (h.busy hp).outLen⟩
  errorLength := h.errorLength

theorem acknowledge_inv {s : State} (h : s.Inv) (v : Word) : (acknowledge v s).Inv where
  memory := h.memory
  status := h.status.clear v
  busy hp := by
    obtain ⟨hd, hr, ha, hc, ho⟩ := h.busy hp
    exact ⟨by simp [Status.clear, hd], by simp [Status.clear, hr], ha, hc, ho⟩
  errorLength := h.errorLength

theorem storeByte_inv {s : State} (h : s.Inv) (a : Word) (b : Byte) :
    State.Inv { s with mem := writeByte s.mem a.toNat b } where
  memory := writeByte_wf h.memory a.isLt b
  status := h.status
  busy hp := ⟨(h.busy hp).done, (h.busy hp).err, (h.busy hp).authFail, (h.busy hp).errCode, (h.busy hp).outLen⟩
  errorLength := h.errorLength

theorem raiseError_inv {s : State} (hm : s.mem.wf) {e : ErrorCode} (he : e ≠ .noError) : (raiseError e s).Inv where
  memory := hm
  status := ⟨by simp, by simp, fun _ => he⟩
  busy hp := by cases hp
  errorLength _ := rfl

/-- The bytes a valid command writes lie in the address space. -/
theorem finish_inv {i : Instr} {s : State} (hm : s.mem.wf) (hv : validate i s.lat = none) :
    (finish i (transformOf i s.lat s.mem) s).Inv where
  memory := by
    refine writeBytes_wf hm _ ?_
    have hlt := s.lat.dstAddr.isLt
    have hlen := transform_length ((validate_passes_iff i s.lat).1 hv).1 s.lat s.mem
    have hspace := output_in_space hv
    omega
  status := ⟨by simp, by simp, by simp⟩
  busy hp := by cases hp
  errorLength hc := absurd rfl hc

theorem busErrorCompletion_inv {i : Instr} {s : State} (hm : s.mem.wf) (hv : validate i s.lat = none) :
    (busErrorCompletion i s).Inv := by
  refine raiseError_inv (drawBytes_wf hm _ _ _ fun x _ hx _ => ?_) (by decide)
  have hlt := s.lat.dstAddr.isLt
  have hspace := output_in_space hv
  simp only [outputRegion] at *
  omega

theorem resetRegisters_inv {s : State} (hm : s.mem.wf) : (resetRegisters s).Inv where
  memory := hm
  status := Status.Consistent.zero
  busy hp := by cases hp
  errorLength hc := absurd rfl hc

theorem resetTurn_inv {s : State} (hm : s.mem.wf) : (resetTurn s).Inv := by
  cases hr : runningCommand s with
  | none => exact resetTurn_of_none hr ▸ resetRegisters_inv hm
  | some i =>
    rw [resetTurn_of_some hr]
    exact resetRegisters_inv (drawBytes_wf hm _ _ _ fun x _ _ hx => of_decide_eq_true hx)

theorem hostTurn_inv {op : HostOp} {s t : State} (hi : s.Inv) (h : hostTurn op s = .next t) : t.Inv := by
  rcases hostTurn_next h with ⟨v, -, rfl⟩ | ⟨-, rfl⟩ | ⟨v, rfl⟩ | ⟨a, b, rfl⟩ | he
  · exact accept_inv hi.memory v
  · exact ignoreCmd_inv hi
  · exact acknowledge_inv hi v
  · exact storeByte_inv hi a b
  · exact hi.of_sameEngine he

theorem engineTurn_inv {s t : State} (hi : s.Inv) (h : engineTurn s = .next t) : t.Inv := by
  cases hp : s.phase with
  | idle => rw [engineTurn_idle hp] at h; cases h; exact hi
  | busy =>
    rcases engineTurn_next hp h with ⟨e, he, -, rfl⟩ | ⟨i, -, hv, rfl⟩ | ⟨i, -, hv, rfl⟩
    · exact raiseError_inv hi.memory he
    · exact finish_inv hi.memory hv
    · exact busErrorCompletion_inv hi.memory hv

theorem takeTurn_inv {turn : Turn} {s t : State} (hi : s.Inv) (h : takeTurn turn s = .next t) : t.Inv := by
  cases turn with
  | host op => exact hostTurn_inv hi h
  | engine => exact engineTurn_inv hi h
  | reset => cases h; exact resetTurn_inv hi.memory

/-- Settles O21, turn by turn: each way a turn can end keeps the invariant. -/
theorem stepKeepsTheInvariant : Obligations.StepKeepsTheInvariant := by
  intro s t hi h
  rcases step_next h with ⟨-, h⟩ | ⟨turn, rest, -, h⟩
  · exact engineTurn_inv hi h
  · exact takeTurn_inv (hi.of_sameEngine (t := { s with schedule := rest }) ⟨rfl, rfl, rfl, rfl⟩) h

/-- Settles O22: after reset memory is empty and STATUS and OUT_LEN are 0. -/
theorem resetMeetsTheInvariant : Obligations.ResetMeetsTheInvariant where
  memory := ⟨.nil, by simp [State.reset, State.resetOn]⟩
  status := Status.Consistent.zero
  busy hp := by cases hp
  errorLength _ := rfl

/-- Settles O23: a host's turn leaves a busy engine busy, so the turn was another agent's. -/
theorem onlyCompletionOrResetEndsBusy : Obligations.OnlyCompletionOrResetEndsBusy := by
  intro s t hb h ht
  rcases step_next h with ⟨hs, -⟩ | ⟨turn, rest, hs, h⟩
  · exact .inl hs
  · refine .inr ⟨rest, ?_⟩
    cases turn with
    | host op =>
      have hbusy : t.phase = .busy := hostTurn_keeps_busy (s := { s with schedule := rest }) hb h
      rw [ht] at hbusy
      cases hbusy
    | engine => exact .inl hs
    | reset => exact .inr hs

end Sys2Proof.Machine

/-! # The register port and reset (10_state.md)

STATUS as a word, bit by bit; reads and writes of the register port; setkey and setnonce; reset. -/

namespace Sys2Proof.Machine

/-! ## STATUS as a word (10_state.md R39) -/

theorem getElem_bitAt (n : Nat) (b : Bool) {j : Nat} (hj : j < 32) : (bitAt n b)[j] = (b && decide (n = j)) := by
  cases b with
  | false => simp [bitAt]
  | true =>
    rw [Bool.true_and, ← BitVec.getLsbD_eq_getElem]
    change (BitVec.ofNat 32 (1 <<< n)).getLsbD j = _
    simp only [BitVec.getLsbD_ofNat, hj, Nat.one_shiftLeft, Nat.testBit_two_pow, decide_true, Bool.true_and]

/-- STATUS bit by bit: the flags at 0 to 4, ERR_CODE from 8 on. -/
theorem getElem_statusWord (p : Phase) (t : Status) {j : Nat} (hj : j < 32) : (statusWord p t)[j] =
    (p.isBusy && decide (0 = j) || t.done && decide (1 = j) || t.err && decide (2 = j) ||
      t.authFail && decide (3 = j) || t.cmdIgnored && decide (4 = j) ||
      !decide (j < 8) && (errorCodeBits t.errCode).getLsbD (j - 8)) := by
  simp [statusWord, getElem_bitAt]

/-- Bits 7:5 of STATUS are reserved. -/
theorem getLsbD_statusWord_reserved (p : Phase) (t : Status) {j : Nat} (hj : j < 3) :
    (statusWord p t).getLsbD (5 + j) = false := by
  have hlt : j + 5 < 32 := by omega
  have hlow : j + 5 < 8 := by omega
  rw [Nat.add_comm, BitVec.getLsbD_eq_getElem hlt, getElem_statusWord]
  simp [hlow]

/-- From bit 8 on STATUS holds ERR_CODE. -/
theorem getLsbD_statusWord_errCode (p : Phase) (t : Status) {j : Nat} (hj : j < 24) :
    (statusWord p t).getLsbD (8 + j) = (errorCodeBits t.errCode).getLsbD j := by
  have hlt : j + 8 < 32 := by omega
  rw [Nat.add_comm, BitVec.getLsbD_eq_getElem hlt, getElem_statusWord]
  simp

theorem isBusy_eq_true_iff (p : Phase) : p.isBusy = true ↔ p = .busy := by
  cases p <;> decide

theorem extractLsb'_statusWord_errCode (p : Phase) (t : Status) :
    (statusWord p t).extractLsb' 8 4 = errorCodeBits t.errCode := by
  ext j hj
  rw [BitVec.getElem_extractLsb' hj, getLsbD_statusWord_errCode p t (by omega), BitVec.getLsbD_eq_getElem hj]

/-- Settles O30, field by field from the bits of STATUS. -/
theorem statusReadsItsFields : Obligations.StatusReadsItsFields := by
  intro p t
  refine ⟨?_, ?_, ?_, ?_, ?_, ?_, ?_, ?_⟩
  · simp [getElem_statusWord, isBusy_eq_true_iff]
  · simp [getElem_statusWord]
  · simp [getElem_statusWord]
  · simp [getElem_statusWord]
  · simp [getElem_statusWord]
  · ext j hj
    rw [BitVec.getElem_extractLsb' hj, getLsbD_statusWord_reserved p t hj]
    simp
  · ext j hj
    have hcode := getLsbD_statusWord_errCode p t (j := 4 + j) (by omega)
    rw [← Nat.add_assoc, BitVec.getLsbD_of_ge (errorCodeBits t.errCode) (4 + j) (by omega)] at hcode
    rw [BitVec.getElem_extractLsb' hj, hcode]
    simp
  · rw [extractLsb'_statusWord_errCode]
    cases t.errCode <;> rfl

/-- A W1C write clears in STATUS, as it reads, the bits of v among DONE, ERR and CMD_IGNORED (R40). -/
theorem statusWord_clear (p : Phase) (t : Status) (v : Word) :
    statusWord p (t.clear v) = statusWord p t &&& ~~~ (v &&& 0x16) := by
  have hmask : ∀ i : Fin 32, (0x16#32)[i] = decide (i.val = 1 ∨ i.val = 2 ∨ i.val = 4) := by decide
  ext j hj
  have hbit := hmask ⟨j, hj⟩
  by_cases hw1c : j = 1 ∨ j = 2 ∨ j = 4
  · rcases hw1c with rfl | rfl | rfl <;> simp [getElem_statusWord, Status.clear]
  · have hkeep : (0x16#32)[j] = false := by simpa [hw1c] using hbit
    have h1 : ¬ 1 = j := by omega
    have h2 : ¬ 2 = j := by omega
    have h4 : ¬ 4 = j := by omega
    simp [getElem_statusWord, Status.clear, hkeep, h1, h2, h4]

/-! ## Register reads and writes -/

/-- CTRL reads as a two-bit number (R37). -/
theorem toNat_ctrl_word (c : Ctrl) : c.word.toNat = c.irqEn.toNat + 2 * c.releaseUnauth.toNat := by
  obtain ⟨en, ru⟩ := c
  cases en <;> cases ru <;> rfl

theorem readOffset_unnamed {off : BitVec 8} (h : 0x44 ≤ off.toNat) (s : State) : readOffset off s = 0 := by
  simp [readOffset, regAt_eq_none h]

/-- Settles O29, offset by offset along the register map. -/
theorem registerReadReturnsItsValue : Obligations.RegisterReadReturnsItsValue := by
  intro s off rest ha hs
  refine ⟨readOffset off s, step_read ha hs, ?_, ?_, ?_, ?_, ?_, ?_, ?_, ?_, ?_, ?_, ?_, ?_, ?_,
    fun h => readOffset_unnamed h s⟩
  · rintro rfl; exact toNat_ctrl_word s.ctrl
  · rintro rfl; rfl
  · rintro rfl; rfl
  · intro h
    simp only [List.mem_cons, List.not_mem_nil, or_false] at h
    rcases h with rfl | rfl | rfl | rfl | rfl <;> rfl
  all_goals
    rintro rfl
    rfl

/-- Settles O31, offset by offset along the register map. -/
theorem registerWriteTakesItsValue : Obligations.RegisterWriteTakesItsValue := by
  intro s off v rest ha hs
  rw [step_write ha hs]
  refine ⟨?_, ?_, ?_, ?_, ?_, ?_, ?_, ?_, ?_, ?_, ?_, ?_, ?_, ?_, ?_⟩
  case refine_2 =>
    rintro (rfl | h)
    · rfl
    · rw [writeOffset_unnamed h]
  all_goals
    rintro rfl
    rfl

theorem portAccess_eq_false {width : AccessWidth} {off : BitVec 8} (h : width ≠ .word ∨ off.toNat % 4 ≠ 0) :
    portAccess width off = false := by
  simpa [portAccess, imp_iff_not_or] using h

/-- Settles O32: the port takes no such access. -/
theorem narrowOrMisalignedAccessFaults : Obligations.NarrowOrMisalignedAccessFaults := by
  intro s width off v rest h
  have hport := portAccess_eq_false h
  constructor
  · intro hs
    simp [step_cons hs, takeTurn, hostTurn, regRead, hport]
  · intro hs
    simp [step_cons hs, takeTurn, hostTurn, regWrite, hport]

/-- Settles O33: the write is the acknowledgement, and STATUS reads as `statusWord_clear` says. -/
theorem statusWriteClearsExactlyItsBits : Obligations.StatusWriteClearsExactlyItsBits := by
  intro s v rest hs
  exact ⟨acknowledge v { s with schedule := rest }, step_write (by decide) hs, statusWord_clear s.phase s.status v, rfl⟩

/-- Settles O34: a CMD write to an idle engine is its acceptance. -/
theorem cmdWriteWhileIdleIsAccepted : Obligations.CmdWriteWhileIdleIsAccepted := by
  intro s v rest hi hs
  rw [step_write (by decide) hs, writeOffset_cmd, writeCmd_idle (s := { s with schedule := rest }) hi]
  rfl

/-- Settles O35: a CMD write to a busy engine is ignored. -/
theorem cmdWriteWhileBusyIsIgnored : Obligations.CmdWriteWhileBusyIsIgnored := by
  intro s v rest hb hs
  rw [step_write (by decide) hs, writeOffset_cmd, writeCmd_busy (s := { s with schedule := rest }) hb]
  rfl

/-! ## setkey and setnonce (10_state.md R44, R45) -/

/-- Four lane words hold the bytes of a sequence in order, and zeros for the missing ones. -/
theorem quad_bytes_laneWords {l : List Byte} (h : l.length ≤ 16) :
    Quad.bytes ⟨laneWord l 0, laneWord l 1, laneWord l 2, laneWord l 3⟩ = l ++ zeros (16 - l.length) := by
  have hlanes : Quad.bytes ⟨laneWord l 0, laneWord l 1, laneWord l 2, laneWord l 3⟩ =
      (List.range 16).map fun j => l.getD j 0 := by
    simp only [Quad.bytes, laneWord, le32_ofLanes]
    rfl
  rw [hlanes]
  refine List.ext_getElem (by simp; omega) fun j hj _ => ?_
  by_cases hlt : j < l.length
  · simp [hlt]
  · simp [hlt, zeros, List.getElem_append]

/-- Byte 0 is in bits 7:0 of the first lane word (20_memory.md R83). -/
theorem extractLsb'_laneWord_zero (l : List Byte) : (laneWord l 0).extractLsb' 0 8 = l.getD 0 0 :=
  (List.cons.inj (le32_ofLanes (l.getD 0 0) (l.getD 1 0) (l.getD 2 0) (l.getD 3 0))).1

theorem applyWrites_key (a b c d : Word) (s : State) :
    applyWrites [(0x10, a), (0x14, b), (0x18, c), (0x1C, d)] s = { s with key := ⟨a, b, c, d⟩ } := by
  rw [applyWrites_cons, applyWrites_cons, applyWrites_cons, applyWrites_cons, writeOffset_named (r := .key3) rfl,
    writeOffset_named (r := .key2) rfl, writeOffset_named (r := .key1) rfl, writeOffset_named (r := .key0) rfl]
  rfl

theorem applyWrites_nonce (a b c d : Word) (s : State) :
    applyWrites [(0x20, a), (0x24, b), (0x28, c), (0x2C, d)] s = { s with nonce := ⟨a, b, c, d⟩ } := by
  rw [applyWrites_cons, applyWrites_cons, applyWrites_cons, applyWrites_cons, writeOffset_named (r := .nonce3) rfl,
    writeOffset_named (r := .nonce2) rfl, writeOffset_named (r := .nonce1) rfl, writeOffset_named (r := .nonce0) rfl]
  rfl

theorem run_asmSetKey {s : State} {k : List Byte} {rest : List Turn} (hs : s.schedule = asmSetKey k ++ rest) :
    Sys2Proof.core.run 4 s = .next ({ s with
      schedule := rest, key := ⟨laneWord k 0, laneWord k 1, laneWord k 2, laneWord k 3⟩ } : State) :=
  (run_writes [(0x10, laneWord k 0), (0x14, laneWord k 1), (0x18, laneWord k 2), (0x1C, laneWord k 3)] (by simp) hs).trans
    (congrArg Host.Outcome.next (applyWrites_key _ _ _ _ _))

theorem run_asmSetNonce {s : State} {n : List Byte} {rest : List Turn} (hs : s.schedule = asmSetNonce n ++ rest) :
    Sys2Proof.core.run 4 s = .next ({ s with
      schedule := rest, nonce := ⟨laneWord n 0, laneWord n 1, laneWord n 2, laneWord n 3⟩ } : State) :=
  (run_writes [(0x20, laneWord n 0), (0x24, laneWord n 1), (0x28, laneWord n 2), (0x2C, laneWord n 3)] (by simp) hs).trans
    (congrArg Host.Outcome.next (applyWrites_nonce _ _ _ _ _))

/-- Settles O36: the four writes put the four lane words in the four registers. -/
theorem setKeyAndSetNonceFillTheLanes : Obligations.SetKeyAndSetNonceFillTheLanes := by
  intro s rest
  constructor
  · intro k hk hs
    have hbytes := quad_bytes_laneWords (l := k) (by omega)
    rw [hk, Nat.sub_self] at hbytes
    exact ⟨_, run_asmSetKey hs, hbytes.trans (List.append_nil k), extractLsb'_laneWord_zero k, rfl⟩
  · intro n hn hs
    exact ⟨_, run_asmSetNonce hs, quad_bytes_laneWords hn, rfl⟩

/-! ## Reset (10_state.md R70) -/

/-- An idle engine runs nothing. -/
theorem runningCommand_idle {s : State} (h : s.phase = .idle) : runningCommand s = none := by
  simp [runningCommand, h]

/-- A running command is the one LAT.CMD names. -/
theorem decode_of_runningCommand {s : State} {i : Instr} (h : runningCommand s = some i) : decode s.lat.cmd = .ok i := by
  unfold runningCommand at h
  split at h
  · cases h
  · split at h <;> cases h
    assumption

theorem resetTurn_mem_outside {s : State} (hm : s.mem.wf) {a : Nat}
    (ha : ∀ i, decode s.lat.cmd = .ok i → ¬ inRegion (outputRegion i s.lat) a) :
    readByte (resetTurn s).mem a = readByte s.mem a := by
  cases hr : runningCommand s with
  | none => rw [resetTurn_of_none hr, resetRegisters_mem]
  | some i =>
    have hout := ha i (decode_of_runningCommand hr)
    rw [resetTurn_of_some hr, resetRegisters_mem, drawRegion_mem,
      readByte_drawBytes hm _ _ _ (fun x _ _ hx => of_decide_eq_true hx), if_neg]
    exact fun ⟨h1, h2, _⟩ => hout ⟨h1, h2⟩

/-- Reset leaves the reset values, on the same platform, before the same turns. -/
theorem resetTurn_eq (s : State) : resetTurn s =
    { State.resetOn s.platform s.schedule with
      mem := (resetTurn s).mem, hostValue := s.hostValue, draws := (resetTurn s).draws } := by
  cases hr : runningCommand s with
  | none => rw [resetTurn_of_none hr]; rfl
  | some i => rw [resetTurn_of_some hr]; rfl

/-- Settles O38 from the two forms of reset's turn: with and without a command to abort. -/
theorem resetClearsTheEngine : Obligations.ResetClearsTheEngine := by
  intro s rest hm hs
  refine ⟨resetTurn { s with schedule := rest }, step_cons hs, ?_, resetTurn_eq { s with schedule := rest }, fun hi => ?_,
    fun a ha => resetTurn_mem_outside (s := { s with schedule := rest }) hm ha⟩
  · rw [resetTurn_eq]; rfl
  · rw [resetTurn_of_none (runningCommand_idle (s := { s with schedule := rest }) hi)]; rfl

end Sys2Proof.Machine

/-! # Noninterference and the end of a command (10_state.md)

What an execute step reads, what a host sees of the keys, and that a polling host sees the command end. -/

namespace Sys2Proof.Machine

/-! ## What an execute step reads (10_state.md R55, R61, R62) -/

/-- s and s' agree in all that an execute step reads. -/
structure SameInputs (s s' : State) : Prop where
  lat : s.lat = s'.lat
  mem : s.mem = s'.mem
  platform : s.platform = s'.platform
  draws : s.draws = s'.draws

/-- s with all that an execute step writes taken from t; CMD_IGNORED is not an execute step's to write. -/
def State.withResult (s t : State) : State :=
  { s with
    mem := t.mem, outLen := t.outLen, status := { t.status with cmdIgnored := s.status.cmdIgnored }
    phase := t.phase, draws := t.draws }

/-- A command ends alike in states that agree in its inputs, and writes nothing but its result. -/
theorem exec_sameInputs {s s' : State} (h : SameInputs s s') (i : Instr) :
    exec i s' = mapNext s'.withResult (exec i s) := by
  cases s
  cases s'
  obtain ⟨hl, hm, hp, hd⟩ := h
  dsimp only at hl hm hp hd
  subst hl hm hp hd
  rw [exec_eq, exec_eq]
  simp only [runCommand]
  cases validate i _ with
  | some e => rfl
  | none =>
    cases platformRefusal _ i _ with
    | some r => rfl
    | none => cases dmaOK _ i _ <;> rfl

theorem engineTurn_sameInputs {s s' : State} (h : SameInputs s s') (hb : s.phase = .busy) (hb' : s'.phase = .busy) :
    engineTurn s' = mapNext s'.withResult (engineTurn s) := by
  unfold engineTurn
  rw [hb, hb', ← h.lat]
  cases decode s.lat.cmd with
  | ok i => exact exec_sameInputs h i
  | error e => simp only [mapNext, raiseError, State.withResult, h.mem, h.draws]

/-- Settles O24: the result is one function of what an execute step reads. -/
theorem resultIgnoresHistoryAndFlags : Obligations.ResultIgnoresHistoryAndFlags := by
  intro i s s' t hl hm hp hd h
  have h' := exec_sameInputs ⟨hl, hm, hp, hd⟩ i
  rw [h] at h'
  exact ⟨s'.withResult t, h', rfl, rfl, rfl⟩

/-! ## A parameter write and a running command (10_state.md R51) -/

theorem writeOffset_sameInputs {off : BitVec 8} (hc : off ≠ 0x04) (hs : off ≠ 0x08) (v : Word) (s : State) :
    SameInputs s (writeOffset off v s) :=
  have h := writeOffset_frame hc hs v s
  ⟨by rw [h], by rw [h], by rw [h], by rw [h]⟩

/-- A parameter write neither reads nor writes a command's result. -/
theorem writeOffset_withResult {off : BitVec 8} (hc : off ≠ 0x04) (hs : off ≠ 0x08) (v : Word) (s t : State) :
    writeOffset off v (s.withResult t) = (writeOffset off v s).withResult t := by
  unfold writeOffset
  cases hr : regAt off with
  | none => rfl
  | some r =>
    obtain ⟨hcmd, hstatus⟩ := regAt_ne_cmd_status hr hc hs
    cases r with
    | cmd => exact absurd rfl hcmd
    | status => exact absurd rfl hstatus
    | _ => rfl

/-- Settles O26: both orders end in the written parameters with the engine's result. -/
theorem registerWriteDoesNotReachTheRunningCommand : Obligations.RegisterWriteDoesNotReachTheRunningCommand := by
  intro s off v rest hb ha hc hs
  have hwrite : Sys2Proof.core.run 2 { s with schedule := asmWr off v :: .engine :: rest } =
      engineTurn (writeOffset off v { s with schedule := rest }) := by
    rw [run2 (step_write ha rfl), writeOffset_schedule off v s (.engine :: rest), step_cons rfl,
      writeOffset_schedule off v s rest]
    rfl
  have hresult : engineTurn (writeOffset off v { s with schedule := rest }) =
      mapNext (writeOffset off v { s with schedule := rest }).withResult (engineTurn { s with schedule := rest }) :=
    engineTurn_sameInputs (writeOffset_sameInputs hc hs v _) hb ((writeOffset_sameEngine hc hs v _).phase.trans hb)
  have hengine : step { s with schedule := .engine :: asmWr off v :: rest } =
      mapNext (State.withResult { s with schedule := asmWr off v :: rest }) (engineTurn { s with schedule := rest }) :=
    (step_engine rfl).trans (engineTurn_sameInputs (s := { s with schedule := rest })
      (s' := { s with schedule := asmWr off v :: rest }) ⟨rfl, rfl, rfl, rfl⟩ hb hb)
  rw [hwrite, hresult]
  cases ho : engineTurn { s with schedule := rest } with
  | next t =>
    rw [ho] at hengine
    rw [run2 hengine, step_write ha rfl]
    exact congrArg Host.Outcome.next (writeOffset_withResult hc hs v { s with schedule := rest } t).symm
  | fault r =>
    rw [ho] at hengine
    exact (run_stop hengine (fun _ he => by cases he) 1).symm
  | refused r =>
    rw [ho] at hengine
    exact (run_stop hengine (fun _ he => by cases he) 1).symm

/-! ## A host never sees the key (10_state.md R43, R60) -/

/-- s with other key registers and another latched key. -/
def State.withKeys (s : State) (k k' : Quad) : State := { s with key := k, lat := { s.lat with key := k' } }

theorem readOffset_withKeys (off : BitVec 8) (s : State) (k k' : Quad) :
    readOffset off (s.withKeys k k') = readOffset off s := by
  unfold readOffset
  cases regAt off with
  | none => rfl
  | some r => cases r <;> rfl

theorem writeOffset_withKeys (off : BitVec 8) (v : Word) (s : State) (k k' : Quad) :
    ∃ q q', writeOffset off v (s.withKeys k k') = (writeOffset off v s).withKeys q q' := by
  unfold writeOffset
  cases regAt off with
  | none => exact ⟨k, k', rfl⟩
  | some r =>
    cases r with
    | cmd =>
      obtain ⟨_, _, _, _, _, _, _, _, _, _, phase, _⟩ := s
      cases phase with
      | idle => exact ⟨k, k, rfl⟩
      | busy => exact ⟨k, k', rfl⟩
    | key0 => exact ⟨{ k with w0 := v }, k', rfl⟩
    | key1 => exact ⟨{ k with w1 := v }, k', rfl⟩
    | key2 => exact ⟨{ k with w2 := v }, k', rfl⟩
    | key3 => exact ⟨{ k with w3 := v }, k', rfl⟩
    | _ => exact ⟨k, k', rfl⟩

/-- The regions of a command are the same under every key. -/
theorem regions_withKey (i : Instr) (l : Latch) (k : Quad) : regions i { l with key := k } = regions i l := by
  cases i <;> rfl

theorem outputRegion_withKey (i : Instr) (l : Latch) (k : Quad) : outputRegion i { l with key := k } = outputRegion i l := by
  cases i <;> rfl

theorem runningCommand_withKeys (s : State) (k k' : Quad) : runningCommand (s.withKeys k k') = runningCommand s := rfl

theorem inWindow_withKeys (s : State) (k k' : Quad) (a : Nat) : inWindow (s.withKeys k k') a = inWindow s a := rfl

theorem isSideEffect_withKeys (s : State) (k k' : Quad) (a : Nat) :
    isSideEffect (s.withKeys k k') a = isSideEffect s a := rfl

theorem inRunningOutput_withKeys (s : State) (k k' : Quad) (a : Nat) :
    inRunningOutput (s.withKeys k k') a = inRunningOutput s a := by
  unfold inRunningOutput
  rw [runningCommand_withKeys]
  cases runningCommand s with
  | none => rfl
  | some i => simp only [State.withKeys, outputRegion_withKey]

theorem inRunningRegions_withKeys (s : State) (k k' : Quad) (a : Nat) :
    inRunningRegions (s.withKeys k k') a = inRunningRegions s a := by
  unfold inRunningRegions
  rw [runningCommand_withKeys]
  cases runningCommand s with
  | none => rfl
  | some i => simp only [State.withKeys, regions_withKey]

/-- A host's turn takes states that differ in the keys alone to outcomes that differ in them alone. -/
theorem hostTurn_withKeys (op : HostOp) (s : State) (k k' : Quad) :
    ∃ q q', hostTurn op (s.withKeys k k') = mapNext (·.withKeys q q') (hostTurn op s) := by
  cases op with
  | regRead width off =>
    refine ⟨k, k', ?_⟩
    simp only [hostTurn, regRead, readOffset_withKeys]
    split <;> rfl
  | regWrite width off v =>
    obtain ⟨q, q', h⟩ := writeOffset_withKeys off v s k k'
    refine ⟨q, q', ?_⟩
    simp only [hostTurn, regWrite, h]
    split <;> rfl
  | memRead a =>
    refine ⟨k, k', ?_⟩
    simp only [hostTurn, memRead, inWindow_withKeys, isSideEffect_withKeys, inRunningOutput_withKeys]
    split_ifs <;> rfl
  | memWrite a b =>
    refine ⟨k, k', ?_⟩
    simp only [hostTurn, memWrite, inWindow_withKeys, isSideEffect_withKeys, inRunningRegions_withKeys]
    split_ifs <;> rfl
  | fence => exact ⟨k, k', rfl⟩

/-- Settles O25: a host's turn commutes with a change of keys. -/
theorem hostNeverSeesTheKey : Obligations.HostNeverSeesTheKey := by
  intro s k k' op rest hs
  obtain ⟨q, q', hkeys⟩ := hostTurn_withKeys op { s with schedule := rest } k k'
  have hstep : step (s.withKeys k k') = mapNext (·.withKeys q q') (step s) := by
    rw [step_cons (s := s.withKeys k k') hs, step_cons hs]
    exact hkeys
  refine ⟨fun t h => ⟨q, q', ?_⟩, fun r h => ?_, fun r h => ?_⟩
  all_goals
    rw [h] at hstep
    exact hstep

/-! ## A polling host (10_state.md R67) -/

/-- A poll is an aligned 32-bit register read. -/
theorem exists_asmRd_of_isPoll {turn : Turn} (h : isPoll turn = true) : ∃ off, turn = asmRd off ∧ off.toNat % 4 = 0 := by
  match turn, h with
  | .host (.regRead width off), h =>
    simp only [isPoll, portAccess, Bool.and_eq_true, beq_iff_eq] at h
    exact ⟨off, by rw [asmRd, h.1], h.2⟩

/-- Polls change the schedule and the host's value alone. -/
theorem run_polls (turns : List Turn) (hp : ∀ turn ∈ turns, isPoll turn = true) {s : State} (hs : s.schedule = turns)
    (n : Nat) : ∃ v, Sys2Proof.core.run (turns.length + n) s =
      Sys2Proof.core.run n ({ s with schedule := [], hostValue := v } : State) := by
  induction turns generalizing s with
  | nil => exact ⟨s.hostValue, by rw [← hs, hs, List.length_nil, Nat.zero_add, ← hs]⟩
  | cons turn turns ih =>
    obtain ⟨off, rfl, ha⟩ := exists_asmRd_of_isPoll (hp turn (by simp))
    obtain ⟨v, hv⟩ := ih (fun u hu => hp u (by simp [hu]))
      (s := { s with schedule := turns, hostValue := readOffset off s }) rfl
    refine ⟨v, ?_⟩
    rw [List.length_cons, Nat.add_right_comm, run_next (step_read ha hs)]
    exact hv

/-- What a busy engine's turn leaves in STATUS and the phase. -/
theorem engineTurn_completes {s t : State} (hb : s.phase = .busy) (h : engineTurn s = .next t) :
    t.phase = .idle ∧ t.status.done = !t.status.err := by
  rcases engineTurn_next hb h with ⟨e, -, -, rfl⟩ | ⟨i, -, -, rfl⟩ | ⟨i, -, -, rfl⟩ <;> exact ⟨rfl, rfl⟩

/-- Settles O27: after the polls the engine's turn is next, and it is safe as it was before them. -/
theorem pollingHostSeesTheCommandEnd : Obligations.PollingHostSeesTheCommandEnd := by
  intro s hb hp hsafe
  obtain ⟨v, hrun⟩ := run_polls s.schedule hp rfl 1
  obtain ⟨t, ht⟩ := engineTurn_safe (s := { s with schedule := [], hostValue := v }) hb hsafe
  obtain ⟨hphase, hdone⟩ := engineTurn_completes (s := { s with schedule := [], hostValue := v }) hb ht
  refine ⟨t, ?_, hphase, ?_, hdone⟩
  · exact hrun.trans ((run1 _).trans ((step_nil rfl).trans ht))
  · rw [hphase]
    simp [getElem_statusWord, Phase.isBusy]

end Sys2Proof.Machine

/-! # Regions and ordinary memory (20_memory.md)

A refused command; what a host's store, fence and load do at an address of ordinary memory. -/

namespace Sys2Proof.Machine

/-! ## A refused command (20_memory.md R81, R87) -/

/-- A command that passes Validate and has a region the platform refuses is refused. -/
theorem exec_refuse {i : Instr} {s : State} {r : Refusal} (hv : validate i s.lat = none)
    (hp : platformRefusal s.platform i s.lat = some r) : exec i s = .refused r := by
  rw [exec_eq]; simp [runCommand, hv, hp]

/-- Settles O18: the command passes Validate, and the platform's two checks say what they mean of bytes. -/
theorem regionOutsideOrdinaryMemoryIsRefused : Obligations.RegionOutsideOrdinaryMemoryIsRefused := by
  intro i s hwf hlen hspace hapart
  have hv : validate i s.lat = none := (validate_passes_iff i s.lat).2 ⟨hwf, hlen, hspace, hapart⟩
  constructor
  · intro hwindow
    exact exec_refuse hv ((platformRefusal_eq_window_iff _ _ _).2 hwindow)
  · intro hoff hdevice
    have hnone : ¬ ∃ r ∈ regions i s.lat, ∃ a, inRegion r a ∧ inRegion (window s.platform) a :=
      fun ⟨r, hr, a, ha, hw⟩ => hoff r hr a ha hw
    exact exec_refuse hv ((platformRefusal_eq_sideEffects_iff _ _ _).2 ⟨hnone, hdevice⟩)

/-! ## A host's turns at ordinary memory (70_reset_and_hazards.md R330, R331) -/

theorem inWindow_eq_false_iff (s : State) (a : Nat) : inWindow s a = false ↔ ¬ inRegion (window s.platform) a := by
  simp only [inWindow, decide_eq_false_iff_not]

theorem isSideEffect_eq_false_iff (s : State) (a : Nat) :
    isSideEffect s a = false ↔ ∀ d ∈ s.platform.sideEffects, ¬ inRegion d a := by
  simp only [isSideEffect, List.any_eq_false, decide_eq_true_eq]

/-- Only a busy engine runs a command. -/
theorem busy_of_runningCommand {s : State} {i : Instr} (h : runningCommand s = some i) : s.phase = .busy := by
  cases hp : s.phase with
  | idle => rw [runningCommand_idle hp] at h; cases h
  | busy => rfl

/-- An address is outside the running regions exactly when, while BUSY, no region of the command LAT.CMD names has it. -/
theorem inRunningRegions_eq_false_iff (s : State) (a : Nat) : inRunningRegions s a = false ↔
    (s.phase = .busy → ∀ i, decode s.lat.cmd = .ok i → ∀ r ∈ regions i s.lat, ¬ inRegion r a) := by
  unfold inRunningRegions
  cases hr : runningCommand s with
  | none =>
    refine iff_of_true rfl fun hb i hi => ?_
    rw [runningCommand_eq hb hi] at hr
    cases hr
  | some i =>
    simp only [List.any_eq_false, decide_eq_true_eq]
    constructor
    · intro h _ j hj
      cases (decode_of_runningCommand hr).symm.trans hj
      exact h
    · intro h
      exact h (busy_of_runningCommand hr) i (decode_of_runningCommand hr)

/-- The output region is one of the regions. -/
theorem inRunningOutput_eq_false {s : State} {a : Nat} (h : inRunningRegions s a = false) :
    inRunningOutput s a = false := by
  unfold inRunningOutput
  unfold inRunningRegions at h
  cases hr : runningCommand s with
  | none => rfl
  | some i =>
    simp only [hr, List.any_eq_false] at h
    exact Bool.eq_false_iff.2 (h (outputRegion i s.lat) (by simp [regions]))

/-- A store that races with no command. -/
theorem memWrite_ordinary {s : State} {a : Word} (hw : inWindow s a.toNat = false) (hd : isSideEffect s a.toNat = false)
    (hr : inRunningRegions s a.toNat = false) (b : Byte) :
    memWrite a b s = .next { s with mem := writeByte s.mem a.toNat b } := by
  simp [memWrite, hw, hd, hr]

/-- A load of a byte that no command is writing. -/
theorem memRead_ordinary {s : State} {a : Word} (hw : inWindow s a.toNat = false) (hd : isSideEffect s a.toNat = false)
    (ho : inRunningOutput s a.toNat = false) :
    memRead a s = .next { s with hostValue := (readByte s.mem a.toNat).setWidth 32 } := by
  simp [memRead, hw, hd, ho]

/-! The checks of an access do not read the schedule: what holds of them before a step holds in its turn. -/

theorem step_store {s : State} {a : Word} {b : Byte} {rest : List Turn} (hw : inWindow s a.toNat = false)
    (hd : isSideEffect s a.toNat = false) (hr : inRunningRegions s a.toNat = false)
    (hs : s.schedule = .host (.memWrite a b) :: rest) :
    step s = .next { s with schedule := rest, mem := writeByte s.mem a.toNat b } :=
  (step_cons hs).trans (memWrite_ordinary (s := { s with schedule := rest }) hw hd hr b)

theorem step_fence {s : State} {rest : List Turn} (hs : s.schedule = .host .fence :: rest) :
    step s = .next { s with schedule := rest } := step_cons hs

theorem step_load {s : State} {a : Word} {rest : List Turn} (hw : inWindow s a.toNat = false)
    (hd : isSideEffect s a.toNat = false) (ho : inRunningOutput s a.toNat = false)
    (hs : s.schedule = .host (.memRead a) :: rest) :
    step s = .next { s with schedule := rest, hostValue := (readByte s.mem a.toNat).setWidth 32 } :=
  (step_cons hs).trans (memRead_ordinary (s := { s with schedule := rest }) hw hd ho)

/-- A store, a fence and a load, one after the other; the checks of the load do not read memory either. -/
theorem run_store_fence_load {s : State} {a : Word} {b : Byte} {rest : List Turn} (hw : inWindow s a.toNat = false)
    (hd : isSideEffect s a.toNat = false) (hr : inRunningRegions s a.toNat = false)
    (hs : s.schedule = .host (.memWrite a b) :: .host .fence :: .host (.memRead a) :: rest) :
    Sys2Proof.core.run 3 s = .next { s with
      schedule := rest, mem := writeByte s.mem a.toNat b
      hostValue := (readByte (writeByte s.mem a.toNat b) a.toNat).setWidth 32 } := by
  rw [run_next (step_store hw hd hr hs), run2 (step_fence rfl)]
  exact step_load (s := { s with schedule := .host (.memRead a) :: rest, mem := writeByte s.mem a.toNat b })
    hw hd (inRunningOutput_eq_false hr) rfl

/-- Settles O40: the three turns one after the other, and memory reads as what was last written. -/
theorem storeFenceLoadOutsideRunningBuffers : Obligations.StoreFenceLoadOutsideRunningBuffers := by
  intro s a b rest hm hregions hwindow hdevice hs
  have hread := readByte_writeByte hm a.toNat b
  refine ⟨_, run_store_fence_load ((inWindow_eq_false_iff s _).2 hwindow) ((isSideEffect_eq_false_iff s _).2 hdevice)
    ((inRunningRegions_eq_false_iff s _).2 hregions) hs, ?_, fun x hx => ?_, rfl⟩
  · exact congrArg (BitVec.setWidth 32) ((hread _).trans (if_pos rfl))
  · exact (hread x).trans (if_neg hx)

end Sys2Proof.Machine

/-! # The command word (30_encoding.md)

Encoding and decoding field by field; the checks of Decode; an illegal word from its acceptance to its error. -/

namespace Sys2Proof

/-! ## Encode, and the choice of the command by OP (R111, R113, R117) -/

/-- A word is its four fields, most significant first. -/
theorem fieldsOf_append_op (v : Word) :
    (fieldsOf v).rsvd ++ (fieldsOf v).mlen ++ (fieldsOf v).nlen ++ v.extractLsb' 0 4 = v := by
  rw [fieldsOf, BitVec.extractLsb'_append_extractLsb'_eq_extractLsb' (show 13 = 8 + 5 from rfl),
    BitVec.extractLsb'_append_extractLsb'_eq_extractLsb' (show 8 = 4 + 4 from rfl),
    BitVec.extractLsb'_append_extractLsb'_eq_extractLsb' (show 4 = 0 + 4 from rfl)]
  exact BitVec.extractLsb'_eq_self

theorem extractLsb'_encode_op (i : Instr) : (encode i).extractLsb' 0 4 = i.opField :=
  BitVec.extractLsb'_append_eq_right

theorem fieldsOf_encode (i : Instr) : fieldsOf (encode i) = i.fields := by
  have hnlen : (encode i).extractLsb' 4 4 = i.fields.nlen :=
    (BitVec.extractLsb'_append_eq_of_le (by decide)).trans BitVec.extractLsb'_append_eq_right
  have hmlen : (encode i).extractLsb' 8 5 = i.fields.mlen :=
    (BitVec.extractLsb'_append_eq_of_le (by decide)).trans
      ((BitVec.extractLsb'_append_eq_of_le (by decide)).trans BitVec.extractLsb'_append_eq_right)
  have hrsvd : (encode i).extractLsb' 13 19 = i.fields.rsvd :=
    (BitVec.extractLsb'_append_eq_of_le (by decide)).trans
      ((BitVec.extractLsb'_append_eq_of_le (by decide)).trans BitVec.extractLsb'_append_eq_left)
  rw [fieldsOf, hnlen, hmlen, hrsvd]

/-- A word names the command that has the word's OP and the word's fields. -/
theorem decode_eq_ok_iff (v : Word) (i : Instr) :
    decode v = .ok i ↔ v.extractLsb' 0 4 = i.opField ∧ fieldsOf v = i.fields := by
  constructor
  · intro h
    rcases decode_cases v with ⟨ho, hd⟩ | ⟨ho, hd⟩ | ⟨ho, hd⟩ | ⟨ho, hd⟩ | ⟨ho, hd⟩ | ⟨-, hd⟩
    all_goals
      rw [hd] at h
      cases h
    all_goals exact ⟨BitVec.eq_of_toNat_eq ho, rfl⟩
  · rintro ⟨ho, hf⟩
    unfold decode
    rw [ho, hf]
    cases i <;> rfl

theorem decode_encode (i : Instr) : decode (encode i) = .ok i :=
  (decode_eq_ok_iff _ i).2 ⟨extractLsb'_encode_op i, fieldsOf_encode i⟩

theorem encode_of_decode {v : Word} {i : Instr} (h : decode v = .ok i) : encode i = v := by
  obtain ⟨ho, hf⟩ := (decode_eq_ok_iff v i).1 h
  rw [encode, ← ho, ← hf]
  exact fieldsOf_append_op v

/-- A word names the command whose encoding it is. -/
theorem decode_eq_ok_iff_encode (v : Word) (i : Instr) : decode v = .ok i ↔ encode i = v :=
  ⟨encode_of_decode, fun h => h ▸ decode_encode i⟩

/-- A word names no command exactly when its OP is reserved. -/
theorem decode_eq_error_iff (v : Word) (e : ErrorCode) :
    decode v = .error e ↔ (v.extractLsb' 0 4).toNat ∉ [1, 2, 3, 4, 5] ∧ e = .badOpcode := by
  rcases decode_cases v with ⟨ho, hd⟩ | ⟨ho, hd⟩ | ⟨ho, hd⟩ | ⟨ho, hd⟩ | ⟨ho, hd⟩ | ⟨ho, hd⟩
  case inr.inr.inr.inr.inr =>
    rw [hd, Except.error.injEq, eq_comm]
    exact (and_iff_right ho).symm
  all_goals simp [hd, ho]

theorem toNat_encode (i : Instr) : (encode i).toNat =
    i.fields.rsvd.toNat <<< 13 ||| i.fields.mlen.toNat <<< 8 ||| i.fields.nlen.toNat <<< 4 ||| i.opField.toNat := by
  rw [encode]
  simp only [BitVec.toNat_append, Nat.shiftLeft_or_distrib, ← Nat.shiftLeft_add]

/-- With RSVD = 0 the word of a command is (MLEN << 8) | (NLEN << 4) | OP. -/
theorem encode_of_rsvd_zero {i : Instr} (h : i.fields.rsvd = 0) : encode i =
    BitVec.ofNat 32 (i.fields.mlen.toNat <<< 8 ||| i.fields.nlen.toNat <<< 4 ||| i.opField.toNat) := by
  have hrsvd : i.fields.rsvd.toNat = 0 := congrArg BitVec.toNat h
  have hword := toNat_encode i
  rw [hrsvd, Nat.zero_shiftLeft, Nat.zero_or] at hword
  rw [← hword, BitVec.ofNat_toNat, BitVec.setWidth_eq]

/-! ## Decode with its checks (R114, R116) -/

/-- Decode reads a word as a command exactly when the word names the command and its fields are legal. -/
theorem decodeLegal_eq_ok_iff (v : Word) (i : Instr) : decodeLegal v = .ok i ↔ decode v = .ok i ∧ i.WellFormed := by
  rw [← Machine.fieldError_eq_none_iff]
  unfold decodeLegal
  cases decode v with
  | error e => simp
  | ok j =>
    cases hj : j.fieldError with
    | some e =>
      refine iff_of_false (by simp [hj]) fun ⟨he, hn⟩ => ?_
      cases he
      cases hj.symm.trans hn
    | none =>
      simp only [hj]
      refine ⟨fun he => ?_, And.left⟩
      cases he
      exact ⟨rfl, hj⟩

/-- Decode ends in the error of the OP check, or of the first failing check of the command that OP names. -/
theorem decodeLegal_eq_error_iff (v : Word) (e : ErrorCode) :
    decodeLegal v = .error e ↔ decode v = .error e ∨ ∃ i, decode v = .ok i ∧ i.fieldError = some e := by
  unfold decodeLegal
  cases decode v with
  | error c => simp
  | ok i => cases hi : i.fieldError <;> simp [hi]

/-- Settles O1: a word is decoded as exactly the command that encodes to it, and Decode asks besides that its fields are
legal. -/
theorem encodeAndDecodeAreInverse : Obligations.EncodeAndDecodeAreInverse :=
  ⟨fun i hi => (decodeLegal_eq_ok_iff _ i).2 ⟨decode_encode i, hi⟩,
    fun v i h => encode_of_decode ((decodeLegal_eq_ok_iff v i).1 h).1,
    decode_encode, fun _ _ => encode_of_decode, rfl, rfl, rfl,
    fun _ _ => ⟨encode_of_rsvd_zero rfl, encode_of_rsvd_zero rfl⟩⟩

/-! ## The legal words (R114) -/

section LegalWords

variable {command : Fields → Instr}

/-- A whole-word command has one legal word. -/
theorem exists_decodeLegal_wholeWord_iff (hlegal : ∀ f, (command f).WellFormed ↔ f.Zero) (v : Word) :
    (∃ f, decodeLegal v = .ok (command f)) ↔ v = encode (command ⟨0, 0, 0⟩) := by
  simp only [decodeLegal_eq_ok_iff, decode_eq_ok_iff_encode, hlegal]
  constructor
  · rintro ⟨⟨n, m, r⟩, rfl, hn, hm, hr⟩
    dsimp only at hn hm hr
    rw [hn, hm, hr]
  · rintro rfl
    exact ⟨_, rfl, rfl, rfl, rfl⟩

theorem mem_nonceLengths_iff (n : Nat) : n ∈ [7, 8, 9, 10, 11, 12, 13] ↔ 7 ≤ n ∧ n ≤ 13 := by
  simp only [List.mem_cons, List.not_mem_nil, or_false]
  omega

/-- The legal words of a CCM command are those of the legal N and M. -/
theorem exists_decodeLegal_ccm_iff (op : BitVec 4) (hlegal : ∀ f, (command f).WellFormed ↔ f.LegalCcm)
    (hfields : ∀ f, (command f).fields = f) (hop : ∀ f, (command f).opField = op) (v : Word) :
    (∃ f, decodeLegal v = .ok (command f)) ↔
      ∃ n ∈ [7, 8, 9, 10, 11, 12, 13], ∃ m ∈ [4, 6, 8, 10, 12, 14, 16],
        v = BitVec.ofNat 32 ((m <<< 8) ||| (n <<< 4) ||| op.toNat) := by
  have hword (n : BitVec 4) (m : BitVec 5) : encode (command ⟨n, m, 0⟩) =
      BitVec.ofNat 32 ((m.toNat <<< 8) ||| (n.toNat <<< 4) ||| op.toNat) := by
    rw [encode_of_rsvd_zero (by rw [hfields]), hfields, hop]
  simp only [decodeLegal_eq_ok_iff, decode_eq_ok_iff_encode, hlegal]
  constructor
  · rintro ⟨⟨n, m, r⟩, rfl, hr, hn, hm⟩
    dsimp only at hr
    subst hr
    exact ⟨n.toNat, (mem_nonceLengths_iff _).2 hn, m.toNat, hm, hword n m⟩
  · rintro ⟨n, hn, m, hm, rfl⟩
    have hmax : ∀ k ∈ [4, 6, 8, 10, 12, 14, 16], k < 2 ^ 5 := by decide
    have hnlegal := (mem_nonceLengths_iff n).1 hn
    have hnlt : n < 2 ^ 4 := by omega
    exact ⟨⟨BitVec.ofNatLT n hnlt, BitVec.ofNatLT m (hmax m hm), 0⟩, hword _ _, rfl, hnlegal, hm⟩

end LegalWords

/-- Settles O2: the one legal word of each whole-word command, and those of a CCM command by its N and M. -/
theorem legalWordsAreExactly : Obligations.LegalWordsAreExactly := fun v =>
  ⟨exists_decodeLegal_wholeWord_iff (fun _ => .rfl) v, exists_decodeLegal_wholeWord_iff (fun _ => .rfl) v,
    exists_decodeLegal_wholeWord_iff (fun _ => .rfl) v,
    exists_decodeLegal_ccm_iff 2 (fun _ => .rfl) (fun _ => rfl) (fun _ => rfl) v,
    exists_decodeLegal_ccm_iff 3 (fun _ => .rfl) (fun _ => rfl) (fun _ => rfl) v⟩

/-! ## The order of the checks (R116) -/

theorem zeroFieldsError_badField {f : Fields} (hr : f.rsvd = 0) (hnm : f.nlen ≠ 0 ∨ f.mlen ≠ 0) :
    zeroFieldsError f = some .badField := by
  rw [zeroFieldsError, if_neg (not_not.2 hr), if_pos hnm]

theorem ccmFieldsError_badNonceLen {f : Fields} (hr : f.rsvd = 0) (hn : f.nlen.toNat < 7 ∨ f.nlen.toNat > 13) :
    ccmFieldsError f = some .badNonceLen := by
  rw [ccmFieldsError, if_neg (not_not.2 hr), if_pos hn]

theorem ccmFieldsError_badMacLen {f : Fields} (hr : f.rsvd = 0) (hn : f.LegalNonce) (hm : ¬ f.LegalMac) :
    ccmFieldsError f = some .badMacLen := by
  obtain ⟨hmin, hmax⟩ := hn
  rw [ccmFieldsError, if_neg (not_not.2 hr), if_neg (by omega), if_pos hm]

/-- RSVD is the first check of every command. -/
theorem fieldError_of_rsvd_ne_zero {i : Instr} (h : i.fields.rsvd ≠ 0) : i.fieldError = some .badField := by
  cases i <;> exact if_pos h

theorem fieldError_wholeWord {i : Instr} (h : i.opField.toNat ∈ [1, 4, 5]) : i.fieldError = zeroFieldsError i.fields := by
  cases i with
  | ccmEnc f => simp [Instr.opField] at h
  | ccmDec f => simp [Instr.opField] at h
  | _ => rfl

theorem fieldError_ccm {i : Instr} (h : i.opField.toNat ∈ [2, 3]) : i.fieldError = ccmFieldsError i.fields := by
  cases i with
  | ccmEnc f => rfl
  | ccmDec f => rfl
  | _ => simp [Instr.opField] at h

theorem decodeLegal_reserved {v : Word} (h : (v.extractLsb' 0 4).toNat ∉ [1, 2, 3, 4, 5]) :
    decodeLegal v = .error .badOpcode :=
  (decodeLegal_eq_error_iff v _).2 (.inl ((decode_eq_error_iff v _).2 ⟨h, rfl⟩))

/-- The first failing check of a command that a legal OP names decides. -/
theorem decodeLegal_of_fieldError {v : Word} {e : ErrorCode} (hop : (v.extractLsb' 0 4).toNat ∈ [1, 2, 3, 4, 5])
    (h : ∀ i : Instr, i.opField = v.extractLsb' 0 4 → i.fields = fieldsOf v → i.fieldError = some e) :
    decodeLegal v = .error e := by
  cases hd : decode v with
  | error c => exact absurd hop ((decode_eq_error_iff v c).1 hd).1
  | ok i =>
    obtain ⟨ho, hf⟩ := (decode_eq_ok_iff v i).1 hd
    exact (decodeLegal_eq_error_iff v e).2 (.inr ⟨i, hd, h i ho.symm hf.symm⟩)

theorem decodeLegal_wholeWord_error {v : Word} {e : ErrorCode} (hop : (v.extractLsb' 0 4).toNat ∈ [1, 4, 5])
    (h : zeroFieldsError (fieldsOf v) = some e) : decodeLegal v = .error e :=
  decodeLegal_of_fieldError ((by decide : [1, 4, 5] ⊆ [1, 2, 3, 4, 5]) hop) fun _ ho hf => by
    rwa [fieldError_wholeWord (ho ▸ hop), hf]

theorem decodeLegal_ccm_error {v : Word} {e : ErrorCode} (hop : (v.extractLsb' 0 4).toNat ∈ [2, 3])
    (h : ccmFieldsError (fieldsOf v) = some e) : decodeLegal v = .error e :=
  decodeLegal_of_fieldError ((by decide : [2, 3] ⊆ [1, 2, 3, 4, 5]) hop) fun _ ho hf => by
    rwa [fieldError_ccm (ho ▸ hop), hf]

theorem decodeLegal_of_wellFormed {v : Word} {i : Instr} (hop : (v.extractLsb' 0 4).toNat = i.opField.toNat)
    (hf : fieldsOf v = i.fields) (hw : i.WellFormed) : decodeLegal v = .ok i :=
  (decodeLegal_eq_ok_iff v i).2 ⟨(decode_eq_ok_iff v i).2 ⟨BitVec.eq_of_toNat_eq hop, hf⟩, hw⟩

theorem fieldsOf_eq_of_toNat {v : Word} {f : Fields} (hn : (v.extractLsb' 4 4).toNat = f.nlen.toNat)
    (hm : (v.extractLsb' 8 5).toNat = f.mlen.toNat) (hr : (v.extractLsb' 13 19).toNat = f.rsvd.toNat) :
    fieldsOf v = f := by
  cases f
  rw [fieldsOf, Fields.mk.injEq]
  exact ⟨BitVec.eq_of_toNat_eq hn, BitVec.eq_of_toNat_eq hm, BitVec.eq_of_toNat_eq hr⟩

/-- Settles O3, clause by clause: the first check that fails, or the command that passes them all. -/
theorem decodeRunsItsChecksInOrder : Obligations.DecodeRunsItsChecksInOrder := by
  intro v op n m rsvd
  have hrsvd (h : rsvd = 0) : (fieldsOf v).rsvd = 0 := BitVec.eq_of_toNat_eq h
  have hccm (hr : rsvd = 0) : fieldsOf v = ⟨BitVec.ofNat 4 n, BitVec.ofNat 5 m, 0⟩ :=
    fieldsOf_eq_of_toNat (by simp [n]) (by simp [m]) hr
  have hlegal (hr : rsvd = 0) (hn : 7 ≤ n) (hn' : n ≤ 13) (hm : m ∈ [4, 6, 8, 10, 12, 14, 16]) :
      Fields.LegalCcm ⟨BitVec.ofNat 4 n, BitVec.ofNat 5 m, 0⟩ :=
    hccm hr ▸ ⟨hrsvd hr, ⟨hn, hn'⟩, hm⟩
  refine ⟨decodeLegal_reserved, fun ho hr => ?_, fun ho hr hnm => ?_,
    fun ho hr hn hm => decodeLegal_of_wellFormed ho (fieldsOf_eq_of_toNat hn hm hr) (by decide),
    fun ho hr hn hm => decodeLegal_of_wellFormed ho (fieldsOf_eq_of_toNat hn hm hr) (by decide),
    fun ho hr hn hm => decodeLegal_of_wellFormed ho (fieldsOf_eq_of_toNat hn hm hr) (by decide),
    fun ho hr hn => decodeLegal_ccm_error ho (ccmFieldsError_badNonceLen (hrsvd hr) hn),
    fun ho hr hn hn' hm => decodeLegal_ccm_error ho (ccmFieldsError_badMacLen (hrsvd hr) ⟨hn, hn'⟩ hm),
    fun ho hr hn hn' hm => decodeLegal_of_wellFormed ho (hccm hr) (hlegal hr hn hn' hm),
    fun ho hr hn hn' hm => decodeLegal_of_wellFormed ho (hccm hr) (hlegal hr hn hn' hm)⟩
  · refine decodeLegal_of_fieldError ho fun i _ hf => fieldError_of_rsvd_ne_zero ?_
    rw [hf]
    exact mt (congrArg BitVec.toNat) hr
  · exact decodeLegal_wholeWord_error ho (zeroFieldsError_badField (hrsvd hr)
      (hnm.imp (mt (congrArg BitVec.toNat)) (mt (congrArg BitVec.toNat))))

/-- Settles O4, word by word. -/
theorem writtenWordsDecode : Obligations.WrittenWordsDecode := ⟨rfl, rfl, rfl, rfl, rfl, rfl⟩

end Sys2Proof

namespace Sys2Proof.Machine

/-! ## An illegal word (R115) -/

theorem engineTurn_of_decode {s : State} {i : Instr} (hb : s.phase = .busy) (h : decode s.lat.cmd = .ok i) :
    engineTurn s = exec i s := by
  simp [engineTurn, hb, h]

theorem engineTurn_of_reserved {s : State} {e : ErrorCode} (hb : s.phase = .busy) (h : decode s.lat.cmd = .error e) :
    engineTurn s = .next (raiseError e s) := by
  simp [engineTurn, hb, h]

/-- The field checks are the first stage of Validate. -/
theorem validate_of_fieldError {i : Instr} {e : ErrorCode} (h : i.fieldError = some e) (l : Latch) :
    validate i l = some e := by
  simp [validate, h]

/-- The turn of a busy engine whose word is illegal is the error completion of the word's code. -/
theorem engineTurn_illegal {s : State} {e : ErrorCode} (hb : s.phase = .busy) (h : decodeLegal s.lat.cmd = .error e) :
    engineTurn s = .next (raiseError e s) := by
  rcases (decodeLegal_eq_error_iff _ _).1 h with hd | ⟨i, hd, hi⟩
  · exact engineTurn_of_reserved hb hd
  · exact (engineTurn_of_decode hb hd).trans (exec_raise (validate_of_fieldError hi s.lat))

theorem step_cmd_idle {s : State} {v : Word} {rest : List Turn} (hi : s.phase = .idle)
    (hs : s.schedule = asmWr 0x04 v :: rest) : step s = .next (accept v { s with schedule := rest }) := by
  rw [step_write (by decide) hs, writeOffset_cmd, writeCmd_idle (s := { s with schedule := rest }) hi]

/-- Settles O6: the word is accepted, and the engine's turn ends it. -/
theorem illegalWordIsAcceptedThenFails : Obligations.IllegalWordIsAcceptedThenFails := by
  intro s v e rest hi hs he
  refine ⟨raiseError e (accept v { s with schedule := rest }), ?_, rfl⟩
  rw [run2 (step_cmd_idle hi hs), step_engine rfl]
  exact engineTurn_illegal rfl he

end Sys2Proof.Machine

/-! # The AES core (40_aes_core.md)

The product in GF(2^8) and the S-box; the round transformations, byte by byte; the key expansion as a recurrence; the
cipher as its rounds; the AES_BLOCK command. -/

namespace Sys2Proof.Machine

/-! ## Arithmetic in GF(2^8) (R141) -/

/-- What bit i of the second operand adds to a product (R141). -/
def gmulTerm (a b : Byte) (i : Nat) : Byte := if b.getLsbD i then xtimes i a else 0

theorem gmul_eq_foldl (a b : Byte) : gmul a b = (List.range 8).foldl (fun acc i => acc ^^^ gmulTerm a b i) 0 := by
  unfold gmul gmulTerm
  congr with acc i
  split <;> simp

theorem gmulTerm_xor (a b c : Byte) (i : Nat) : gmulTerm a (b ^^^ c) i = gmulTerm a b i ^^^ gmulTerm a c i := by
  unfold gmulTerm
  rw [BitVec.getLsbD_xor]
  cases b.getLsbD i <;> cases c.getLsbD i <;> simp

/-- A sum of terms is linear in the second operand and the start together. -/
theorem foldl_gmulTerm_xor (a b c : Byte) (is : List Nat) (x y : Byte) :
    is.foldl (fun acc i => acc ^^^ gmulTerm a (b ^^^ c) i) (x ^^^ y) =
      is.foldl (fun acc i => acc ^^^ gmulTerm a b i) x ^^^ is.foldl (fun acc i => acc ^^^ gmulTerm a c i) y := by
  induction is generalizing x y with
  | nil => rfl
  | cons i is ih =>
    have hstep : x ^^^ y ^^^ gmulTerm a (b ^^^ c) i = (x ^^^ gmulTerm a b i) ^^^ (y ^^^ gmulTerm a c i) := by
      rw [gmulTerm_xor]; ac_rfl
    simp only [List.foldl_cons, hstep, ih]

/-- The product is linear in its second operand. -/
theorem gmul_xor (a b c : Byte) : gmul a (b ^^^ c) = gmul a b ^^^ gmul a c := by
  rw [gmul_eq_foldl, gmul_eq_foldl a b, gmul_eq_foldl a c]
  exact foldl_gmulTerm_xor a b c (List.range 8) 0 0

@[simp] theorem gmul_zero (a : Byte) : gmul a 0 = 0 := by simp [gmul]

/-- A product with x^i is i applications of xtime. -/
theorem gmul_shiftLeft_one (a : Byte) {i : Nat} (hi : i < 8) : gmul a ((1 : Byte) <<< i) = xtimes i a := by
  interval_cases i <;> simp [gmul, List.range, List.range.loop]

theorem xtimes_succ (i : Nat) (a : Byte) : xtimes (i + 1) a = xtime (xtimes i a) := by
  induction i generalizing a with
  | zero => rfl
  | succ i ih => exact ih (xtime a)

/-- xtime doubles, less 0x11B when bit 7 was 1 (R141). -/
theorem xtime_eq_ofNat (a : Byte) :
    xtime a = BitVec.ofNat 8 (if a.toNat < 0x80 then 2 * a.toNat else (2 * a.toNat) ^^^ 0x11B) := by
  have htop : a.getLsbD 7 = decide (0x80 ≤ a.toNat) := BitVec.msb_eq_decide a
  have hshift : a <<< 1 = BitVec.ofNat 8 (2 * a.toNat) := by
    apply BitVec.eq_of_toNat_eq
    simp [Nat.shiftLeft_eq, Nat.mul_comm]
  unfold xtime
  rw [htop, hshift]
  by_cases h : a.toNat < 0x80
  · simp [h]
  · simp [h, BitVec.ofNat_xor]

/-- Settles O50: linearity from the sum over the bits, the powers of x from xtime applied that many times. -/
theorem gfProductFollowsItsBits : Obligations.GfProductFollowsItsBits := by
  refine ⟨fun a => ⟨gmul_zero a, gmul_shiftLeft_one a (i := 0) (by decide)⟩, gmul_xor, fun a i hi => ?_,
    xtime_eq_ofNat, by decide, by decide, by decide, by decide⟩
  rw [gmul_shiftLeft_one a (by omega), gmul_shiftLeft_one a (by omega), xtimes_succ]

/-! ## The S-box (R143) -/

/-- The affine map A backwards: three rotations and a constant, as A is five rotations and 0x63 (R143). -/
def sboxAffineInv (y : Byte) : Byte := y.rotateLeft 1 ^^^ y.rotateLeft 3 ^^^ y.rotateLeft 6 ^^^ 0x05

theorem sboxAffine_sboxAffineInv : ∀ y : Byte, sboxAffine (sboxAffineInv y) = y := by decide +kernel

/-- A taken off an entry of the table leaves the inverse. -/
theorem isGfInv_sboxAffineInv_sbox : ∀ b : Byte, IsGfInv b (sboxAffineInv (sbox b)) := by decide +kernel

/-- Settles O43: A is onto, so S(b) is A of a byte, and at all 256 entries that byte is the inverse. -/
theorem sboxIsTheAffineMapOfTheInverse : Obligations.SboxIsTheAffineMapOfTheInverse := fun b =>
  ⟨sboxAffineInv (sbox b), isGfInv_sboxAffineInv_sbox b, (sboxAffine_sboxAffineInv (sbox b)).symm⟩

/-! ## The round transformations (R145 to R148) -/

theorem getD_subBytes (t : List Byte) {i : Nat} (hi : i < t.length) : (subBytes t).getD i 0 = sbox (t.getD i 0) := by
  rw [List.getD_eq_getElem _ _ (by simpa using hi), List.getD_eq_getElem _ _ hi]
  exact List.getElem_map _

theorem getD_shiftRows (t : List Byte) {p : Nat} (hp : p < 16) :
    (shiftRows t).getD p 0 = t.getD (p % 4 + 4 * ((p / 4 + p % 4) % 4)) 0 := by
  rw [List.getD_eq_getElem _ _ (by simpa using hp)]
  simp [shiftRows]

/-- Row r turns left by r places (R146). -/
theorem getD_shiftRows_row (t : List Byte) {r c : Nat} (hr : r < 4) (hc : c < 4) :
    (shiftRows t).getD (r + 4 * c) 0 = t.getD (r + 4 * ((c + r) % 4)) 0 := by
  have hmod : (r + 4 * c) % 4 = r := by omega
  have hdiv : (r + 4 * c) / 4 = c := by omega
  rw [getD_shiftRows t (by omega), hmod, hdiv]

/-- Column c of MixColumns is the mix of column c (R147). -/
theorem mixColumns_column (t : List Byte) {c : Nat} (hc : c < 4) : ((mixColumns t).drop (4 * c)).take 4 =
    mixColumn (t.getD (4 * c) 0) (t.getD (4 * c + 1) 0) (t.getD (4 * c + 2) 0) (t.getD (4 * c + 3) 0) := by
  interval_cases c <;> rfl

/-- A byte of a piece of a sequence, read in the sequence. -/
theorem getD_of_piece {t piece : List Byte} {p n : Nat} (h : (t.drop p).take n = piece) {j : Nat} (hj : j < n) :
    t.getD (p + j) 0 = piece.getD j 0 := by
  simp [← h, List.getD_eq_getElem?_getD, List.getElem?_take_of_lt hj]

/-- Settles O51, one transformation after the other. -/
theorem roundStepsActOnEachByte : Obligations.RoundStepsActOnEachByte := by
  intro t rk ht hrk
  refine ⟨by simpa using ht, shiftRows_length t, mixColumns_length t, by simp [addRoundKey, ht, hrk],
    fun i hi => getD_subBytes t (by omega), fun r c => getD_shiftRows_row t, rfl, ?_,
    fun i hi => getD_xorBytes (by omega) (by omega)⟩
  intro c a0 a1 a2 a3 hc hcol
  have h0 : t.getD (4 * c) 0 = a0 := getD_of_piece hcol (j := 0) (by decide)
  have h1 : t.getD (4 * c + 1) 0 = a1 := getD_of_piece hcol (by decide)
  have h2 : t.getD (4 * c + 2) 0 = a2 := getD_of_piece hcol (by decide)
  have h3 : t.getD (4 * c + 3) 0 = a3 := getD_of_piece hcol (by decide)
  rw [mixColumns_column t hc, h0, h1, h2, h3]
  rfl

/-! ## The key expansion (R149, R150) -/

/-- The first n + 4 words of the key expansion, newest first. -/
def newestWords (k : List Byte) (n : Nat) : List (List Byte) :=
  (List.range' 4 n).foldl keyStep [(k.drop 12).take 4, (k.drop 8).take 4, (k.drop 4).take 4, k.take 4]

theorem keyWords_eq_reverse (k : List Byte) : keyWords k = (newestWords k 40).reverse := rfl

theorem newestWords_succ (k : List Byte) (n : Nat) :
    newestWords k (n + 1) = keyStep (newestWords k n) (n + 4) := by
  simp [newestWords, List.range'_1_concat, Nat.add_comm]

/-- The word of step i, from the word before it and the word four places before it (R149). -/
def nextWord (back4 back1 : List Byte) (i : Nat) : List Byte :=
  xorBytes back4 (if i % 4 = 0 then xorBytes (subWord (rotWord back1)) [rcon (i / 4), 0x00, 0x00, 0x00] else back1)

theorem keyStep_eq_cons (ws : List (List Byte)) (i : Nat) :
    keyStep ws i = nextWord (ws.getD 3 []) (ws.getD 0 []) i :: ws := rfl

@[simp] theorem newestWords_length (k : List Byte) (n : Nat) : (newestWords k n).length = n + 4 := by
  induction n with
  | zero => rfl
  | succ n ih => simp [newestWords_succ, keyStep_eq_cons, ih]

/-- Later steps keep the words there are. -/
theorem newestWords_suffix (k : List Byte) {n m : Nat} (h : n ≤ m) : newestWords k n <:+ newestWords k m := by
  induction m, h using Nat.le_induction with
  | base => exact List.suffix_refl _
  | succ m _ ih =>
    rw [newestWords_succ, keyStep_eq_cons]
    exact ih.trans (List.suffix_cons _ _)

/-- Word i of the key expansion, read among the newest words of any stage that has it. -/
theorem getD_keyWords (k : List Byte) {n i j : Nat} (hn : n ≤ 40) (hij : i + j = n + 3) :
    (keyWords k).getD i [] = (newestWords k n).getD j [] := by
  obtain ⟨later, hlater⟩ := newestWords_suffix k hn
  have hlen := newestWords_length k n
  rw [keyWords_eq_reverse, ← hlater, List.reverse_append, List.getD_append _ _ _ _ (by simp; omega),
    List.getD_reverse _ (by omega)]
  congr 1
  omega

/-- The recurrence of R149. -/
theorem getD_keyWords_recurrence (k : List Byte) {i : Nat} (h4 : 4 ≤ i) (h44 : i < 44) :
    (keyWords k).getD i [] = nextWord ((keyWords k).getD (i - 4) []) ((keyWords k).getD (i - 1) []) i := by
  obtain ⟨n, rfl⟩ : ∃ n, i = n + 4 := ⟨i - 4, by omega⟩
  rw [getD_keyWords k (n := n + 1) (j := 0) (by omega) (by omega), newestWords_succ, keyStep_eq_cons,
    getD_keyWords k (n := n) (i := n + 4 - 4) (j := 3) (by omega) (by omega),
    getD_keyWords k (n := n) (i := n + 4 - 1) (j := 0) (by omega) (by omega)]
  rfl

/-- The round constants, written out (R150). -/
theorem rcon_eq_getD : ∀ j, 1 ≤ j → j ≤ 10 →
    rcon j = [0x01#8, 0x02, 0x04, 0x08, 0x10, 0x20, 0x40, 0x80, 0x1B, 0x36].getD (j - 1) 0 := by
  intro j h1 h10
  interval_cases j <;> rfl

/-- Every fourth word takes RotWord, SubWord and a round constant (R149). -/
theorem nextWord_of_mod_eq_zero (back4 : List Byte) (a0 a1 a2 a3 : Byte) {i : Nat} (h : i % 4 = 0) :
    nextWord back4 [a0, a1, a2, a3] i =
      xorBytes back4 [sbox a1 ^^^ rcon (i / 4), sbox a2, sbox a3, sbox a0] := by
  simp [nextWord, h, subWord, rotWord, xorBytes]

/-- Round key j is four words in order (R149). -/
theorem getD_groupWords {ws : List (List Byte)} {j : Nat} (h : 4 * j + 3 < ws.length) :
    (groupWords ws).getD j [] =
      ws.getD (4 * j) [] ++ ws.getD (4 * j + 1) [] ++ ws.getD (4 * j + 2) [] ++ ws.getD (4 * j + 3) [] := by
  induction j generalizing ws with
  | zero =>
    match ws, h with
    | a :: b :: c :: d :: ws, _ => rfl
  | succ j ih =>
    match ws, h with
    | a :: b :: c :: d :: ws, h => exact ih (by simp at h; omega)

/-- The first four words are the key's (R149). -/
theorem getD_keyWords_of_lt_four (k : List Byte) {i : Nat} (hi : i < 4) :
    (keyWords k).getD i [] = (k.drop (4 * i)).take 4 := by
  rw [getD_keyWords k (n := 0) (j := 3 - i) (by decide) (by omega)]
  interval_cases i <;> rfl

theorem getD_roundKeys {k : List Byte} (hk : k.length = 16) {j : Nat} (hj : j ≤ 10) : (roundKeys k).getD j [] =
    (keyWords k).getD (4 * j) [] ++ (keyWords k).getD (4 * j + 1) [] ++
      (keyWords k).getD (4 * j + 2) [] ++ (keyWords k).getD (4 * j + 3) [] :=
  getD_groupWords (by rw [(keyWords_shape hk).2]; omega)

/-- Round key 0 is the key itself (R149). -/
theorem getD_roundKeys_zero {k : List Byte} (hk : k.length = 16) : (roundKeys k).getD 0 [] = k := by
  have hlast : (k.drop 12).take 4 = k.drop 12 := List.take_of_length_le (by simp [hk])
  have hsplit (n : Nat) : (k.drop n).take 4 ++ k.drop (n + 4) = k.drop n := by
    rw [← List.drop_drop]; exact List.take_append_drop 4 _
  rw [getD_roundKeys hk (by decide)]
  calc (keyWords k).getD 0 [] ++ (keyWords k).getD 1 [] ++ (keyWords k).getD 2 [] ++ (keyWords k).getD 3 []
      = (k.drop 0).take 4 ++ (k.drop 4).take 4 ++ (k.drop 8).take 4 ++ (k.drop 12).take 4 := by
        simp only [getD_keyWords_of_lt_four, Nat.reduceLT, Nat.reduceMul]
    _ = k := by rw [hlast, List.append_assoc, List.append_assoc, hsplit 8, hsplit 4, hsplit 0, List.drop_zero]

/-- Settles O44, from the recurrence of the words and the grouping of the round keys. -/
theorem keyExpansionFollowsTheRecurrence : Obligations.KeyExpansionFollowsTheRecurrence := by
  intro k hk
  refine ⟨(keyWords_shape hk).2, (roundKeys_shape hk).2, getD_roundKeys_zero hk, fun i => getD_keyWords_of_lt_four k,
    fun i h4 h44 hmod => ?_, fun i h4 h44 hmod a0 a1 a2 a3 hback => ?_, fun j => getD_roundKeys hk⟩
  · rw [getD_keyWords_recurrence k h4 h44, nextWord, if_neg hmod]
  · rw [getD_keyWords_recurrence k h4 h44, hback, nextWord_of_mod_eq_zero _ _ _ _ _ hmod,
      rcon_eq_getD _ (by omega) (by omega)]

/-! ## The cipher (R157) -/

/-- The state T(j) after j rounds with MixColumns (R157). -/
def aesState (k b : List Byte) (j : Nat) : List Byte :=
  (((roundKeys k).drop 1).take j).foldl aesRound (xorBytes b ((roundKeys k).getD 0 []))

theorem aesState_succ {k : List Byte} (hk : k.length = 16) (b : List Byte) {j : Nat} (hj : j < 10) :
    aesState k b (j + 1) = aesRound (aesState k b j) ((roundKeys k).getD (j + 1) []) := by
  have hlen : j + 1 < (roundKeys k).length := by rw [(roundKeys_shape hk).2]; omega
  have htake : ((roundKeys k).drop 1).take (j + 1) =
      ((roundKeys k).drop 1).take j ++ [(roundKeys k).getD (j + 1) []] := by
    rw [List.take_succ_eq_append_getElem (by simp; omega), List.getElem_drop, List.getD_eq_getElem _ _ hlen]
    simp [Nat.add_comm]
  rw [aesState, htake, List.foldl_append]
  rfl

/-- The example of R157. -/
theorem aes128_example :
    aes128 (be 0x2b7e151628aed2a6abf7158809cf4f3c 16) (be 0x3243f6a8885a308d313198a2e0370734 16) =
      be 0x3925841d02dc09fbdc118597196a0b32 16 := by decide +kernel

/-- Settles O52: the states are those of the fold over the round keys. -/
theorem aes128RunsTenRounds : Obligations.Aes128RunsTenRounds := by
  refine ⟨fun k b hk hb => ⟨aesState k b, rfl, fun j h1 h9 => ?_, rfl, aes128_length hk hb⟩, aes128_example⟩
  obtain ⟨i, rfl⟩ := Nat.exists_eq_add_of_le' h1
  exact aesState_succ hk b (by omega)

/-! ## AES_BLOCK (R170) -/

/-- A command that executes normally writes its transform's bytes and completes (60_exceptions.md R291). -/
theorem finish_completed {i : Instr} {s : State} (hm : s.mem.wf) (hv : Valid i s) :
    Completed s (finish i (transformOf i s.lat s.mem) s) (transformOf i s.lat s.mem).out
      (transformOf i s.lat s.mem).authFail := by
  have hpass := ((valid_iff i s).1 hv).1
  have hout := transform_length hv.wellFormed s.lat s.mem
  have hspace : s.lat.dstAddr.toNat + (transformOf i s.lat s.mem).out.length ≤ 2 ^ 32 := by
    have := output_in_space hpass
    have := s.lat.dstAddr.isLt
    omega
  have hread := readByte_writeBytes hm (transformOf i s.lat s.mem).out hspace
  refine ⟨fun k hk => ?_, fun a ha => ?_, ?_, rfl, rfl⟩
  · rw [finish_mem, hread, if_pos (by omega), Nat.add_sub_cancel_left]
  · rw [finish_mem, hread, if_neg (by omega)]
  · rw [finish_outLen, BitVec.toNat_ofNat, Nat.mod_eq_of_lt (outputLength_lt hpass), hout]

/-- Settles O7: the command executes normally and ends with its transform's result. -/
theorem aesBlockEncryptsTheBlock : Obligations.AesBlockEncryptsTheBlock := by
  intro f s hm hv hb
  refine ⟨_, exec_of_valid hv hb, rfl, ?_⟩
  simpa only [transformOf, aesBlockResult] using finish_completed hm hv

end Sys2Proof.Machine

/-! # CCM (41_ccm.md)

The formatting function and the counter blocks; the CBC-MAC as a chain; encryption and decryption, byte by byte; the
round trip; the commands CCM_ENC and CCM_DEC. -/

namespace Sys2Proof.Machine

/-! ## The flags byte of B0 (R183) -/

theorem tagLength_bounds {m : Nat} (h : m ∈ [4, 6, 8, 10, 12, 14, 16]) : 4 ≤ m ∧ m ≤ 16 := by
  simp at h; omega

/-- The fields of the flags byte: bit 7 is 0, then Adata, (M − 2)/2 and L − 1 (R183). -/
theorem flagsB0_fields (adLen : Nat) {tagLen lenSize : Nat} (hm : tagLen < 18) (hl : lenSize ≤ 8) :
    (flagsB0 adLen tagLen lenSize).getLsbD 7 = false ∧
    (flagsB0 adLen tagLen lenSize).getLsbD 6 = decide (0 < adLen) ∧
    ((flagsB0 adLen tagLen lenSize).extractLsb' 3 3).toNat = (tagLen - 2) / 2 ∧
    ((flagsB0 adLen tagLen lenSize).extractLsb' 0 3).toNat = lenSize - 1 := by
  have hfields : ∀ adata : Bool, ∀ t < 8, ∀ q < 8,
      let flags := BitVec.ofNat 8 (((if adata then 1 else 0) <<< 6) ||| (t <<< 3) ||| q)
      flags.getLsbD 7 = false ∧ flags.getLsbD 6 = adata ∧
        (flags.extractLsb' 3 3).toNat = t ∧ (flags.extractLsb' 0 3).toNat = q := by decide
  simpa [flagsB0] using hfields (decide (0 < adLen)) ((tagLen - 2) / 2) (by omega) (lenSize - 1) (by omega)

/-! ## The counter blocks (R188, R190) -/

/-- A counter block keeps its flags byte below 8, B0 does not: (M − 2)/2 is not 0 (R183, R188). -/
theorem counterBlock_ne_blockB0 {nonce : List Byte} (hn : 7 ≤ nonce.length) {m : Nat} (hm : 4 ≤ m ∧ m ≤ 16)
    (i adLen pLen : Nat) : counterBlock nonce i ≠ blockB0 nonce adLen pLen m := by
  intro heq
  obtain ⟨-, -, htag, -⟩ := flagsB0_fields adLen (tagLen := m) (lenSize := 15 - nonce.length) (by omega) (by omega)
  rw [← (List.cons.inj heq).1, BitVec.extractLsb'_toNat, BitVec.toNat_ofNat, Nat.shiftRight_eq_div_pow] at htag
  omega

theorem ceil16_lt {pLen l : Nat} (hl : 2 ≤ l) (h : pLen < 2 ^ (8 * l)) : ceil16 pLen < 2 ^ (8 * l) := by
  have hbig : 2 ^ (8 * 2) ≤ 2 ^ (8 * l) := Nat.pow_le_pow_right (by decide) (by omega)
  unfold ceil16
  omega

/-- Counter blocks differ as long as the counters fit their field (R190). -/
theorem counterBlock_inj {nonce : List Byte} {i j : Nat} (hi : i < 2 ^ (8 * (15 - nonce.length)))
    (hj : j < 2 ^ (8 * (15 - nonce.length))) (h : counterBlock nonce i = counterBlock nonce j) : i = j :=
  be_inj hi hj (List.append_cancel_left (List.cons.inj h).2)

/-- Settles O47: the counters fit their field, so they can be read back from the blocks; the flags byte tells B0 apart. -/
theorem counterBlocksNeverRepeat : Obligations.CounterBlocksNeverRepeat := by
  intro nonce pLen h7 h13 hp
  have hceil := ceil16_lt (by omega) hp
  exact ⟨hceil, counterBlock_length h13,
    fun i j hi hj => counterBlock_inj (by omega) (by omega),
    fun i adLen m hm => counterBlock_ne_blockB0 h7 (tagLength_bounds hm) i adLen pLen⟩

/-! ## The MAC input stream (R183 to R186) -/

theorem pad16_eq_append (s : List Byte) :
    ∃ z, pad16 s = s ++ zeros z ∧ z < 16 ∧ (s ++ zeros z).length % 16 = 0 :=
  ⟨_, rfl, Nat.mod_lt _ (by decide), pad16_length_mod s⟩

/-- Header and associated data are padded together; with no associated data there is nothing to pad (R185). -/
theorem adBlocks_eq_pad16 (ad : List Byte) : adBlocks ad = pad16 (adHdr ad.length ++ ad) := by
  cases ad with
  | nil => rfl
  | cons b ad => simp [adBlocks]

/-- Settles O53: the paddings are those of pad16, the flags byte's fields stand side by side, and the header is AdHdr. -/
theorem ccmFormatLaysOutTheStream : Obligations.CcmFormatLaysOutTheStream := by
  intro nonce ad p m h7 h13 hm
  obtain ⟨h4, h16⟩ := tagLength_bounds hm
  obtain ⟨z1, had, hz1, hadLen⟩ := pad16_eq_append (adHdr ad.length ++ ad)
  obtain ⟨z2, hp, hz2, hpLen⟩ := pad16_eq_append p
  obtain ⟨hzero, hadata, htag, hsize⟩ := flagsB0_fields ad.length (tagLen := m) (lenSize := 15 - nonce.length)
    (by omega) (by omega)
  refine ⟨flagsB0 ad.length m (15 - nonce.length), adHdr ad.length, z1, z2, ?_, hzero, hadata, htag, hsize,
    fun h0 => ?_, fun hpos hlt => ?_, fun hge _ => ?_, hz1, hadLen, hz2, hpLen⟩
  · rw [ccmFormat, blockB0, adBlocks_eq_pad16, had, hp]; rfl
  · rw [h0]; rfl
  · rw [adHdr, if_neg (by omega), if_pos hlt]
  · rw [adHdr, if_neg (by omega), if_neg (by omega)]

/-! ## The CBC-MAC (R187) -/

/-- Exclusive-or with zeros is the identity. -/
theorem zeros_xorBytes {b : List Byte} {n : Nat} (h : b.length = n) : xorBytes (zeros n) b = b := by
  subst h
  apply List.ext_getElem <;> simp [xorBytes, zeros]

/-- The chaining value Y_j: the CBC-MAC of the first j blocks (R187). -/
def cbcChain (k stream : List Byte) (j : Nat) : List Byte :=
  (chunks j stream).foldl (fun y x => aes128 k (xorBytes y x)) (zeros 16)

theorem cbcChain_succ (k stream : List Byte) (j : Nat) : cbcChain k stream (j + 1) =
    aes128 k (xorBytes (cbcChain k stream j) ((stream.drop (16 * j)).take 16)) := by
  simp [cbcChain, chunks_succ]

theorem cbcChain_one (k : List Byte) {stream : List Byte} (h : 16 ≤ stream.length) :
    cbcChain k stream 1 = aes128 k (stream.take 16) := by
  have hfirst : xorBytes (zeros 16) (stream.take 16) = stream.take 16 := zeros_xorBytes (by simpa using h)
  rw [cbcChain_succ, cbcChain, chunks, List.foldl_nil, Nat.mul_zero, List.drop_zero, hfirst]

theorem ccmMac_eq_cbcChain (k nonce ad p : List Byte) (m : Nat) : ccmMac k nonce ad p m =
    (cbcChain k (ccmFormat nonce ad p m) ((ccmFormat nonce ad p m).length / 16)).take m := rfl

theorem blockB0_length {nonce : List Byte} (hn : nonce.length ≤ 13) (adLen pLen m : Nat) :
    (blockB0 nonce adLen pLen m).length = 16 := by
  simp [blockB0]; omega

/-- The stream is B0 and then whole blocks (R186). -/
theorem ccmFormat_length {nonce : List Byte} (hn : nonce.length ≤ 13) (ad p : List Byte) (m : Nat) :
    (ccmFormat nonce ad p m).length = 16 + (adBlocks ad).length + (pad16 p).length := by
  rw [ccmFormat, List.length_append, List.length_append, blockB0_length hn]

theorem ccmFormat_length_mod {nonce : List Byte} (hn : nonce.length ≤ 13) (ad p : List Byte) (m : Nat) :
    (ccmFormat nonce ad p m).length % 16 = 0 := by
  have had := pad16_length_mod (adHdr ad.length ++ ad)
  have hp := pad16_length_mod p
  rw [ccmFormat_length hn, adBlocks_eq_pad16]
  omega

/-- Settles O54: the chain is the CBC-MAC of the stream's first blocks. -/
theorem ccmMacChainsTheBlocks : Obligations.CcmMacChainsTheBlocks := by
  intro k nonce ad p m hk _ h13 hm stream
  have hlen : 16 ≤ stream.length := by
    rw [ccmFormat_length h13]
    omega
  exact ⟨cbcChain k stream, ccmFormat_length_mod h13 ad p m, hlen, rfl, fun j _ => cbcChain_succ k stream j,
    cbcChain_one k hlen, ccmMac_eq_cbcChain k nonce ad p m, ccmMac_length hk nonce ad p (tagLength_bounds hm).2⟩

/-! ## The keystream and the masked tag, byte by byte (R189, R191) -/

theorem getD_take {s : List Byte} {n j : Nat} (h : j < n) : (s.take n).getD j 0 = s.getD j 0 := by
  simpa using (getD_of_piece (t := s) (p := 0) rfl h).symm

/-- Byte j of joined 16-byte blocks is byte j mod 16 of block j div 16. -/
theorem getD_flatten_blocks {bs : List (List Byte)} (h : ∀ b ∈ bs, b.length = 16) (j : Nat) :
    bs.flatten.getD j 0 = (bs.getD (j / 16) []).getD (j % 16) 0 := by
  induction bs generalizing j with
  | nil => rfl
  | cons b bs ih =>
    have hb : b.length = 16 := h b (by simp)
    rw [List.flatten_cons]
    by_cases hj : j < 16
    · rw [List.getD_append _ _ _ _ (by omega), Nat.div_eq_of_lt hj, Nat.mod_eq_of_lt hj]
      rfl
    · obtain ⟨i, rfl⟩ := Nat.exists_eq_add_of_le' (Nat.le_of_not_lt hj)
      rw [List.getD_append_right _ _ _ _ (by omega), hb, Nat.add_sub_cancel, ih (fun c hc => h c (by simp [hc]))]
      simp

/-- Byte j of the keystream is byte j mod 16 of S_(1 + j div 16) (R189). -/
theorem getD_keyStream {k nonce : List Byte} (hk : k.length = 16) (hn : nonce.length ≤ 13) {n j : Nat} (hj : j < n) :
    (keyStream k nonce n).getD j 0 = (aes128 k (counterBlock nonce (1 + j / 16))).getD (j % 16) 0 := by
  have hblocks : ∀ b ∈ keyStreamBlocks k nonce n, b.length = 16 := by
    intro b hb
    obtain ⟨i, -, rfl⟩ := List.mem_map.1 hb
    exact aes128_length hk (counterBlock_length hn i)
  have hblock : (keyStreamBlocks k nonce n).getD (j / 16) [] = aes128 k (counterBlock nonce (1 + j / 16)) := by
    rw [List.getD_eq_getElem _ _ (by simp [keyStreamBlocks]; omega)]
    simp [keyStreamBlocks]
  rw [keyStream, getD_take hj, getD_flatten_blocks hblocks, hblock]

theorem getD_maskTag {k nonce tag : List Byte} (hk : k.length = 16) (hn : nonce.length ≤ 13) {m j : Nat} (hm : m ≤ 16)
    (ht : tag.length = m) (hj : j < m) :
    (maskTag k nonce tag m).getD j 0 = tag.getD j 0 ^^^ (aes128 k (counterBlock nonce 0)).getD j 0 := by
  have hs := aes128_length hk (counterBlock_length hn 0)
  rw [maskTag, getD_xorBytes (by omega) (by simp; omega), getD_take hj]

/-- A payload encrypted or decrypted: byte j takes byte j mod 16 of S_(1 + j div 16) (R189). -/
theorem getD_xorBytes_keyStream {k nonce p : List Byte} (hk : k.length = 16) (hn : nonce.length ≤ 13) {j : Nat}
    (hj : j < p.length) : (xorBytes p (keyStream k nonce p.length)).getD j 0 =
      p.getD j 0 ^^^ (aes128 k (counterBlock nonce (1 + j / 16))).getD (j % 16) 0 := by
  rw [getD_xorBytes hj (by rwa [keyStream_length hk hn]), getD_keyStream hk hn hj]

/-! ## Encryption and decryption (R192, R193) -/

theorem xorBytes_keyStream_length {k nonce : List Byte} (hk : k.length = 16) (hn : nonce.length ≤ 13) (p : List Byte) :
    (xorBytes p (keyStream k nonce p.length)).length = p.length := by
  simp [keyStream_length hk hn]

/-- Settles O55: the bytes of the encrypted payload, then those of the masked tag. -/
theorem ccmEncryptsByteByByte : Obligations.CcmEncryptsByteByByte := by
  intro k nonce ad p m hk _ h13 hm s
  obtain ⟨-, h16⟩ := tagLength_bounds hm
  have hpart := xorBytes_keyStream_length hk h13 p
  refine ⟨ccmEnc_length hk h13 ad p h16, fun j hj => ?_, fun j hj => ?_⟩
  · rw [ccmEnc, List.getD_append _ _ _ _ (by omega)]
    exact getD_xorBytes_keyStream hk h13 hj
  · rw [ccmEnc, List.getD_append_right _ _ _ _ (by omega), hpart, Nat.add_sub_cancel_left]
    exact getD_maskTag hk h13 h16 (ccmMac_length hk nonce ad p h16) hj

/-- Sequences of one length are equal when they agree byte by byte. -/
theorem eq_iff_forall_getD {a b : List Byte} {n : Nat} (ha : a.length = n) (hb : b.length = n) :
    a = b ↔ ∀ j, j < n → a.getD j 0 = b.getD j 0 := by
  refine ⟨fun h j _ => by rw [h], fun h => List.ext_getElem (by omega) fun j hja hjb => ?_⟩
  simpa [hja, hjb] using h j (by omega)

/-- Settles O56: the payload as a keystream, and the two tags compared byte by byte. -/
theorem ccmDecryptsByteByByte : Obligations.CcmDecryptsByteByByte := by
  intro k nonce ad input m hk _ h13 hm hin s pLen
  obtain ⟨-, h16⟩ := tagLength_bounds hm
  have hpLen : (input.take pLen).length = pLen := by simp [pLen]
  refine ⟨_, _, rfl, ccmDec_length hk h13 ad input m, fun j hj => ?_, ?_⟩
  · have hbyte := getD_xorBytes_keyStream (nonce := nonce) hk h13 (p := input.take pLen) (j := j) (by omega)
    rw [hpLen, getD_take hj] at hbyte
    exact hbyte
  · have hmac := ccmMac_length hk nonce ad (ccmDec k nonce ad input m).1 h16
    have hrecv : ((input.drop pLen).take m).length = m := by simp [pLen]; omega
    have hmask := maskTag_length hk h13 h16 hmac
    refine (beq_iff_eq.trans eq_comm).trans ((eq_iff_forall_getD hrecv hmask).trans (forall₂_congr fun j hj => ?_))
    rw [getD_maskTag hk h13 h16 hmac hj, ← getD_of_piece rfl hj]
    rfl

/-- C, the first part of an encryption's output (R192). -/
theorem ccmEnc_take {k nonce : List Byte} (hk : k.length = 16) (hn : nonce.length ≤ 13) (ad p : List Byte) (m : Nat) :
    (ccmEnc k nonce ad p m).take p.length = xorBytes p (keyStream k nonce p.length) :=
  List.take_left' (xorBytes_keyStream_length hk hn p)

/-- U, the rest of an encryption's output (R192). -/
theorem ccmEnc_drop {k nonce : List Byte} (hk : k.length = 16) (hn : nonce.length ≤ 13) (ad p : List Byte) (m : Nat) :
    (ccmEnc k nonce ad p m).drop p.length = maskTag k nonce (ccmMac k nonce ad p m) m :=
  List.drop_left' (xorBytes_keyStream_length hk hn p)

/-- Settles O45: the keystream cancels, and the tag is computed over the same payload on both sides. -/
theorem ccmDecryptsWhatItEncrypts : Obligations.CcmDecryptsWhatItEncrypts := by
  intro k nonce ad p m hk _ h13 hm
  obtain ⟨-, h16⟩ := tagLength_bounds hm
  have hpLen : (ccmEnc k nonce ad p m).length - m = p.length := by
    rw [ccmEnc_length hk h13 ad p h16, Nat.add_sub_cancel]
  have hpayload : xorBytes (xorBytes p (keyStream k nonce p.length)) (keyStream k nonce p.length) = p :=
    xorBytes_xorBytes (by rw [keyStream_length hk h13])
  have htag : (maskTag k nonce (ccmMac k nonce ad p m) m).take m = maskTag k nonce (ccmMac k nonce ad p m) m :=
    List.take_of_length_le (maskTag_length hk h13 h16 (ccmMac_length hk nonce ad p h16)).le
  simp only [ccmDec, hpLen, ccmEnc_take hk h13, ccmEnc_drop hk h13, hpayload, htag, beq_self_eq_true]

/-! ## The commands (R197 to R200) -/

/-- Settles O8: the command executes normally and ends with its transform's result. -/
theorem ccmEncWritesCiphertextAndTag : Obligations.CcmEncWritesCiphertextAndTag := by
  intro f s hm hv hb
  have hdone := finish_completed hm hv
  exact ⟨_, exec_of_valid hv hb, hdone.outLen.trans (transform_length hv.wellFormed s.lat s.mem), hdone⟩

/-- CCM_DEC's transform by the outcome of the decryption (R199, R200). -/
theorem ccmDecResult_eq {f : Fields} {l : Latch} {m : Memory} {p : List Byte} {ok : Bool}
    (h : ccmDec l.key.bytes (ccmNonce f l) (adBytes l m) (srcBytes l m) (ccmM f) = (p, ok)) :
    ccmDecResult f l m =
      { out := if ok || l.releaseUnauth then p else zeros (l.srcLen.toNat - ccmM f), authFail := !ok } := by
  simp only [ccmDecResult, h]

/-- Settles O9: the command executes normally and ends with its transform's result, by the outcome of the tag. -/
theorem ccmDecReleasesOrWithholdsThePayload : Obligations.CcmDecReleasesOrWithholdsThePayload := by
  intro f s hm hv hb
  have hdone := finish_completed hm hv
  refine ⟨_, exec_of_valid hv hb, hdone.outLen.trans (transform_length hv.wellFormed s.lat s.mem), fun p ok hdec => ?_⟩
  have hresult : transformOf (.ccmDec f) s.lat s.mem = _ := ccmDecResult_eq hdec
  rw [hresult] at hdone ⊢
  refine ⟨fun hok => ?_, fun hok hrel => ?_, fun hok hrel => ?_⟩
  · simpa [hok] using hdone
  · simpa [hok, hrel] using hdone
  · simpa [hok, hrel, ccmM] using hdone

/-! ## The round trip on the engine (R194) -/

/-- The output region after a completion holds the output. -/
theorem Completed.readBytes_output {s t : State} {out : List Byte} {b : Bool} (h : Completed s t out b) :
    readBytes t.mem s.lat.dstAddr.toNat out.length = out := by
  apply List.ext_getElem
  · simp
  · intro i hi hi'
    simpa [readBytes, hi'] using h.output i hi'

/-- A region apart from the output reads after a completion as it did before. -/
theorem Completed.readBytes_apart {s t : State} {out : List Byte} {b : Bool} (h : Completed s t out b) {i : Instr}
    (hout : out.length = outputLength i s.lat) {r : Region}
    (hr : ∀ a, inRegion r a → ¬ inRegion (outputRegion i s.lat) a) :
    readBytes t.mem r.base r.len = readBytes s.mem r.base r.len := by
  refine readBytes_congr fun a hlo hhi => h.elsewhere a ?_
  have hnot := hr a ⟨hlo, hhi⟩
  simp only [inRegion, outputRegion] at hnot
  omega

/-- A command keeps memory in its canonical form, however it ends. -/
theorem exec_keeps_wf {i : Instr} {s t : State} (hm : s.mem.wf) (h : exec i s = .next t) : t.mem.wf := by
  rcases exec_next h with ⟨e, -, rfl⟩ | ⟨hv, rfl⟩ | ⟨hv, rfl⟩
  · exact hm
  · exact (finish_inv hm hv).memory
  · exact (busErrorCompletion_inv hm hv).memory

/-- Settles O46: the CCM_DEC reads the output of the CCM_ENC and the associated data it read, and the pure round trip does
the rest. -/
theorem engineDecryptsWhatItEncrypted : Obligations.EngineDecryptsWhatItEncrypted := by
  intro f s t u hm hv hb hexec hmem hkey hnonce hadAddr hadLen hsrcAddr hsrcLen hv' hb'
  obtain ⟨-, hN, hM⟩ := hv.wellFormed
  have h7 : 7 ≤ (ccmNonce f s.lat).length := by rw [ccmNonce_length hN]; exact hN.1
  have h13 : (ccmNonce f s.lat).length ≤ 13 := by rw [ccmNonce_length hN]; exact hN.2
  obtain ⟨t', hexec', -, henc⟩ := ccmEncWritesCiphertextAndTag f s hm hv hb
  obtain rfl : t = t' := by simpa [hexec] using hexec'
  have hsrc : readBytes u.mem u.lat.srcAddr.toNat u.lat.srcLen.toNat = ccmEnc s.lat.key.bytes (ccmNonce f s.lat)
      (adBytes s.lat s.mem) (srcBytes s.lat s.mem) f.mlen.toNat := by
    rw [hmem, hsrcAddr, hsrcLen, henc.outLen]
    exact henc.readBytes_output
  have had : readBytes u.mem u.lat.adAddr.toNat u.lat.adLen.toNat = adBytes s.lat s.mem := by
    rw [hmem, hadAddr, hadLen]
    exact henc.readBytes_apart (transform_length hv.wellFormed s.lat s.mem)
      (hv.apart ⟨s.lat.adAddr.toNat, s.lat.adLen.toNat⟩ (by simp [inputRegions]))
  have htrip := ccmDecryptsWhatItEncrypts s.lat.key.bytes (ccmNonce f s.lat) (adBytes s.lat s.mem)
    (srcBytes s.lat s.mem) f.mlen.toNat (quad_bytes_length _) h7 h13 hM
  obtain ⟨w, hw, -, hdec⟩ := ccmDecReleasesOrWithholdsThePayload f u (hmem ▸ exec_keeps_wf hm hexec) hv' hb'
  obtain ⟨hpayload, -, -⟩ := hdec (srcBytes s.lat s.mem) true (by rw [hsrc, had, hkey, hnonce]; exact htrip)
  have hdone := hpayload rfl
  have hpLen : (srcBytes s.lat s.mem).length = s.lat.srcLen.toNat := readBytes_length _ _ _
  refine ⟨w, hw, by rw [hdone.status], BitVec.eq_of_toNat_eq (hdone.outLen.trans hpLen), ?_⟩
  have hread := hdone.readBytes_output
  rwa [hpLen] at hread

end Sys2Proof.Machine

/-! # MMO_HASH (42_mmo_hash.md)

The padding, the chain of compressions, and the command. -/

namespace Sys2Proof.Machine

/-! ## The padding (R231, R232) -/

theorem getD_zeros (n j : Nat) : (zeros n).getD j 0 = 0 := by
  simp [zeros]

/-- The message, and after it the padding that R231 appends. -/
theorem mmoPad_eq_append (x : List Byte) : mmoPad x =
    x ++ 0x80 :: (zeros (mmoZeros (x.length % 16)) ++ be (8 * x.length % 2 ^ 16) 2) := by
  simp [mmoPad]

theorem mmoPad_length (x : List Byte) : (mmoPad x).length = x.length + 3 + mmoZeros (x.length % 16) := by
  simp [mmoPad]; omega

/-- The zeros fill the last block, of floor(n/16) + 1 + e blocks in all (R232). -/
theorem mmoPad_length_eq_mmoCalls (x : List Byte) : (mmoPad x).length = 16 * mmoCalls x.length := by
  rw [mmoPad_length]
  unfold mmoZeros mmoCalls
  by_cases h : 14 ≤ x.length % 16
  · rw [if_neg (by omega), if_pos h]; omega
  · rw [if_pos (by omega), if_neg h]; omega

theorem getD_mmoPad_zero {x : List Byte} {j : Nat} (hj : x.length < j) (hlast : j + 2 < (mmoPad x).length) :
    (mmoPad x).getD j 0 = 0 := by
  rw [mmoPad_length] at hlast
  obtain ⟨i, rfl⟩ := Nat.exists_eq_add_of_lt hj
  rw [mmoPad_eq_append, List.getD_append_right _ _ _ _ (by omega), Nat.add_assoc, Nat.add_sub_cancel_left,
    List.getD_cons_succ, List.getD_append _ _ _ _ (by simp; omega), getD_zeros]

/-- The padded message ends with the length field. -/
theorem mmoPad_drop_length_field (x : List Byte) :
    (mmoPad x).drop ((mmoPad x).length - 2) = be (8 * x.length % 2 ^ 16) 2 :=
  List.drop_left' (by simp [mmoPad]; omega)

/-- Settles O48: the padding is appended to the message, and its zeros fill the last block. -/
theorem mmoPaddingIsAsTheTableSays : Obligations.MmoPaddingIsAsTheTableSays := by
  intro x
  refine ⟨?_, ?_, ?_, fun j => getD_mmoPad_zero, mmoPad_drop_length_field x⟩
  · have he : x.length % 16 = 14 ∨ x.length % 16 = 15 ↔ 14 ≤ x.length % 16 := by omega
    simp only [mmoPad_length_eq_mmoCalls, mmoCalls, he]
  · rw [mmoPad_eq_append, List.take_left]
  · rw [mmoPad_eq_append, List.getD_append_right _ _ _ _ (Nat.le_refl _), Nat.sub_self, List.getD_cons_zero]

/-! ## The chain of compressions (R234, R235) -/

/-- The chaining value H_j: the first j blocks of the padded message compressed into zeros(16) (R235). -/
def mmoChain (padded : List Byte) (j : Nat) : List Byte := (chunks j padded).foldl mmoCompress (zeros 16)

theorem mmoChain_succ (padded : List Byte) (j : Nat) :
    mmoChain padded (j + 1) = mmoCompress (mmoChain padded j) ((padded.drop (16 * j)).take 16) := by
  simp [mmoChain, chunks_succ]

theorem mmoHash_eq_mmoChain (x : List Byte) : mmoHash x = mmoChain (mmoPad x) ((mmoPad x).length / 16) := rfl

/-- Settles O57: the digest is the chain over all the blocks, and the padding leaves no part of a block. -/
theorem mmoHashChainsTheBlocks : Obligations.MmoHashChainsTheBlocks := by
  intro x block
  have hwhole : (mmoPad x).length % 16 = 0 := by
    rw [mmoPad_length_eq_mmoCalls, Nat.mul_mod_right]
  exact ⟨mmoChain (mmoPad x), hwhole, rfl, fun j _ => mmoChain_succ (mmoPad x) j, mmoHash_eq_mmoChain x, mmoHash_length x⟩

/-! ## The command (R240) -/

/-- Settles O10: the command executes normally and ends with its transform's result. -/
theorem mmoHashWritesTheDigest : Obligations.MmoHashWritesTheDigest := by
  intro f s hm hv hb
  exact ⟨_, exec_of_valid hv hb, rfl, finish_completed hm hv⟩

end Sys2Proof.Machine

/-! # HMAC_MMO (43_hmac.md) -/

namespace Sys2Proof.Machine

/-! ## The command (R262, R265) -/

/-- HMAC_MMO's transform is the two nested hashes of R262 on the latched key and the message, and no tag can fail (R265). -/
theorem transformOf_hmacMmo (f : Fields) (l : Latch) (m : Memory) : transformOf (.hmacMmo f) l m =
    { out := mmoHash (xorBytes l.key.bytes (rep 16 0x5C) ++ mmoHash (xorBytes l.key.bytes (rep 16 0x36) ++ srcBytes l m))
      authFail := false } := rfl

/-- Settles O11: the command executes normally and ends with its transform's result. -/
theorem hmacMmoWritesTheDigest : Obligations.HmacMmoWritesTheDigest := by
  intro f s hm hv hb
  have hdone := finish_completed hm hv
  rw [transformOf_hmacMmo] at hdone
  exact ⟨_, exec_of_valid hv hb, rfl, hdone⟩

end Sys2Proof.Machine

/-! # Errors and completions (60_exceptions.md)

How each stage of Validate, and a bus error, end a command; the frame of every ending; the engine's turn; events that
coincide with a completion. -/

namespace Sys2Proof.Machine

/-! ## A stage of Validate fails (R286) -/

/-- Validate's code is that of the error completion, and nothing else happens (R292). -/
theorem exec_failed {i : Instr} {s : State} {e : ErrorCode} (h : validate i s.lat = some e) :
    ∃ t, exec i s = .next t ∧ Failed s t e := ⟨raiseError e s, exec_raise h, rfl⟩

theorem zeroFieldsError_of_not_zero {f : Fields} (h : ¬ f.Zero) : zeroFieldsError f = some .badField := by
  by_cases hr : f.rsvd = 0
  · refine zeroFieldsError_badField hr ?_
    by_contra hnm
    rw [not_or, not_not, not_not] at hnm
    exact h ⟨hnm.1, hnm.2, hr⟩
  · exact if_pos hr

/-- Settles O13: the field checks are the first stage, and each command runs its kind's checks in their order. -/
theorem illegalFieldsFailFirst : Obligations.IllegalFieldsFailFirst := by
  intro f s
  constructor
  · intro hz i hi
    have hfield : i.fieldError = zeroFieldsError f := by
      simp only [List.mem_cons, List.not_mem_nil, or_false] at hi
      rcases hi with rfl | rfl | rfl <;> rfl
    exact exec_failed (validate_of_fieldError (hfield.trans (zeroFieldsError_of_not_zero hz)) s.lat)
  · intro i hi
    have hfield : i.fieldError = ccmFieldsError f := by
      simp only [List.mem_cons, List.not_mem_nil, or_false] at hi
      rcases hi with rfl | rfl <;> rfl
    have hfail {e : ErrorCode} (h : ccmFieldsError f = some e) : ∃ t, exec i s = .next t ∧ Failed s t e :=
      exec_failed (validate_of_fieldError (hfield.trans h) s.lat)
    exact ⟨fun hr => hfail (if_pos hr), fun hr hn => hfail (ccmFieldsError_badNonceLen hr (by omega)),
      fun hr hn hm => hfail (ccmFieldsError_badMacLen hr hn hm)⟩

/-- A legal word with a wrong length fails at stage 2. -/
theorem exec_badLength {i : Instr} {s : State} (hw : i.WellFormed) (hl : ¬ LengthLegal i s.lat) :
    ∃ t, exec i s = .next t ∧ Failed s t .badLength := by
  have hlen := (lengthError_eq i s.lat).resolve_left (mt (lengthError_eq_none_iff i s.lat).1 hl)
  exact exec_failed (by simp [validate, (fieldError_eq_none_iff i).2 hw, hlen])

/-- With legal lengths, a region with a byte outside the address space fails at stage 3. -/
theorem exec_addrRange {i : Instr} {s : State} (hw : i.WellFormed) (hl : LengthLegal i s.lat)
    (hs : ¬ InAddressSpace i s.lat) : ∃ t, exec i s = .next t ∧ Failed s t .addrRange := by
  have hrange := (rangeError_eq i s.lat).resolve_left (mt (rangeError_eq_none_iff i s.lat).1 hs)
  exact exec_failed (by
    simp [validate, (fieldError_eq_none_iff i).2 hw, (lengthError_eq_none_iff i s.lat).2 hl, hrange])

/-- With all regions in the address space, an output byte that is an input byte too fails at stage 4. -/
theorem exec_overlap {i : Instr} {s : State} (hw : i.WellFormed) (hl : LengthLegal i s.lat)
    (hs : InAddressSpace i s.lat) (ha : ¬ Apart i s.lat) : ∃ t, exec i s = .next t ∧ Failed s t .overlap := by
  have hover := (overlapError_eq i s.lat).resolve_left (mt (overlapError_eq_none_iff i s.lat).1 ha)
  exact exec_failed (by
    simp [validate, (fieldError_eq_none_iff i).2 hw, (lengthError_eq_none_iff i s.lat).2 hl,
      (rangeError_eq_none_iff i s.lat).2 hs, hover])

/-- Settles O14: in each clause the length is not one that stage 2 lets pass. -/
theorem wrongLengthFailsNext : Obligations.WrongLengthFailsNext := by
  intro f s
  refine ⟨fun hw hl => exec_badLength hw hl, fun hw hl => exec_badLength hw (Nat.not_lt.2 hl), fun hw hl => ?_⟩
  refine exec_badLength hw fun ⟨hmin, hmax⟩ => ?_
  rcases hl with hl | hl
  · exact Nat.not_lt.2 hmin hl
  · exact Nat.not_lt.2 hl hmax

/-- Settles O15: the last byte of the region has no 32-bit address. -/
theorem wrappingRegionFailsNext : Obligations.WrappingRegionFailsNext := by
  intro i s hw hl ⟨r, hr, hpos, hwrap⟩
  refine exec_addrRange hw hl fun hspace => ?_
  have hlast := hspace r hr (r.base + r.len - 1) (by simp only [inRegion]; omega)
  omega

/-- Settles O16: the shared byte keeps the regions from being apart. -/
theorem sharedByteFailsNext : Obligations.SharedByteFailsNext := by
  intro i s hw hl hs ⟨r, hr, a, hin, hout⟩
  exact exec_overlap hw hl hs fun hapart => hapart r hr a hin hout

/-! ## A bus error (R289) -/

/-- Memory after a BUS_ERROR completion: free bytes where a write of the output region is admitted, the old ones elsewhere. -/
theorem readByte_busErrorCompletion {i : Instr} {s : State} (hm : s.mem.wf) (hv : validate i s.lat = none) (a : Nat) :
    readByte (busErrorCompletion i s).mem a =
      if inRegion (outputRegion i s.lat) a ∧ busOK s.platform a .write = true then
        Config.freeByte (s.draws + (a - s.lat.dstAddr.toNat))
      else readByte s.mem a := by
  obtain ⟨-, -, hspace, -⟩ := (validate_passes_iff i s.lat).1 hv
  have hout : outputRegion i s.lat ∈ regions i s.lat := by simp [regions]
  exact (readByte_drawBytes hm _ _ _ (fun x h1 h2 _ => hspace _ hout x ⟨h1, h2⟩) a).trans
    (if_congr and_assoc.symm rfl rfl)

theorem busErrorCompletion_busFailed {i : Instr} {s : State} (hm : s.mem.wf) (hv : validate i s.lat = none) :
    BusFailed i s (busErrorCompletion i s) where
  drawn k hk hok := by
    rw [readByte_busErrorCompletion hm hv, if_pos ⟨⟨Nat.le_add_right _ _, Nat.add_lt_add_left hk _⟩, hok⟩,
      Nat.add_sub_cancel_left]
  elsewhere a ha := by
    rw [readByte_busErrorCompletion hm hv, if_neg]
    rintro ⟨hin, hok⟩
    rcases ha with hout | hbus
    · exact hout hin
    · simp [hbus] at hok
  status := rfl
  rest := rfl

/-- A valid command that meets a bus error. -/
theorem exec_busError {i : Instr} {s : State} (hv : Valid i s) (hb : ¬ BusAdmits i s) :
    exec i s = .next (busErrorCompletion i s) := by
  obtain ⟨hpass, hplatform⟩ := (valid_iff i s).1 hv
  have hdma : ¬ dmaOK s.platform i s.lat = true := mt (busAdmits_iff i s).2 hb
  rw [exec_eq]; simp [runCommand, hpass, hplatform, hdma]

/-- Settles O17: BusOK decides between the two ends of a valid command. -/
theorem busErrorEndsAValidCommand : Obligations.BusErrorEndsAValidCommand := by
  intro i s hm hv
  exact ⟨fun hb => ⟨_, exec_busError hv hb, busErrorCompletion_busFailed hm ((valid_iff i s).1 hv).1⟩,
    fun hb => ⟨_, exec_of_valid hv hb, rfl, rfl⟩⟩

/-! ## The frame of every ending (R293, R297) -/

/-- The ends of a command, with what is known of it at each. -/
theorem exec_next_valid {i : Instr} {s t : State} (h : exec i s = .next t) :
    (∃ e, validate i s.lat = some e ∧ t = raiseError e s) ∨
    (Valid i s ∧ t = finish i (transformOf i s.lat s.mem) s) ∨ (Valid i s ∧ t = busErrorCompletion i s) := by
  rcases exec_next h with he | ⟨hv, ht⟩ | ⟨hv, ht⟩
  · exact .inl he
  all_goals
    have hplatform : platformRefusal s.platform i s.lat = none := by
      cases hp : platformRefusal s.platform i s.lat with
      | none => rfl
      | some r => rw [exec_refuse hv hp] at h; cases h
    have hvalid := (valid_iff i s).2 ⟨hv, hplatform⟩
  · exact .inr (.inl ⟨hvalid, ht⟩)
  · exact .inr (.inr ⟨hvalid, ht⟩)

/-- A completion leaves every byte outside the output region as it was. -/
theorem Completed.readByte_outside {s t : State} {out : List Byte} {b : Bool} (h : Completed s t out b) {i : Instr}
    (hout : out.length = outputLength i s.lat) {a : Nat} (ha : ¬ inRegion (outputRegion i s.lat) a) :
    readByte t.mem a = readByte s.mem a := by
  refine h.elsewhere a ?_
  simp only [inRegion, outputRegion] at ha
  omega

/-- Settles O12: an error of Validate touches no memory, and the other two ends write the output region alone. -/
theorem commandChangesOnlyItsOutputAndStatus : Obligations.CommandChangesOnlyItsOutputAndStatus := by
  intro i s t hm h
  refine ⟨exec_frame h, ?_⟩
  rcases exec_next_valid h with ⟨e, -, rfl⟩ | ⟨hv, rfl⟩ | ⟨hv, rfl⟩
  · exact ⟨rfl, fun a _ => rfl⟩
  · exact ⟨rfl, fun a ha => (finish_completed hm hv).readByte_outside (transform_length hv.wellFormed _ _) ha⟩
  · exact ⟨rfl, fun a ha => (busErrorCompletion_busFailed hm ((valid_iff i s).1 hv).1).elsewhere a (.inl ha)⟩

/-- Settles O19: a code other than BUS_ERROR is raised by Validate, or by a reserved OP, before any access to memory. -/
theorem errorsArePrecise : Obligations.ErrorsArePrecise := by
  intro s t hm hb h herr
  rcases engineTurn_next hb h with ⟨e, -, he, rfl⟩ | ⟨i, -, -, rfl⟩ | ⟨i, hi, hv, rfl⟩
  · exact ⟨fun _ => rfl, fun hbus => absurd hbus he⟩
  · cases herr
  · exact ⟨fun hbus => absurd rfl hbus, fun _ => ⟨i, hi, busErrorCompletion_busFailed hm hv⟩⟩

/-! ## The engine's turn (R281, R290, R295, R307) -/

/-- When the engine is next in the schedule, or nothing is, the step is the engine's turn. -/
theorem step_engine_next {s : State} {rest : List Turn}
    (h : s.schedule = .engine :: rest ∨ s.schedule = [] ∧ rest = []) :
    step s = engineTurn { s with schedule := rest } := by
  rcases h with hs | ⟨hs, rfl⟩
  · exact step_engine hs
  · rw [step_nil hs, ← hs]

/-- Settles O5: the engine's turn chooses by LAT.CMD, and the decoder's only error is BAD_OPCODE. -/
theorem stepRunsTheLatchedCommand : Obligations.StepRunsTheLatchedCommand := by
  intro s rest hb hs
  rw [step_engine_next hs]
  refine ⟨fun i hi => engineTurn_of_decode hb hi, fun e he => ?_⟩
  cases decode_error he
  exact ⟨_, engineTurn_of_reserved hb he, rfl⟩

/-- No command faults. -/
theorem exec_ne_fault (i : Instr) (s : State) (r : Fault) : exec i s ≠ .fault r := by
  rw [exec_eq]
  rcases runCommand_cases i (transformOf i) s with ⟨_, _, h⟩ | ⟨_, _, _, h⟩ | ⟨_, _, _, h⟩ | ⟨_, _, _, h⟩ <;> simp [h]

theorem engineTurn_ne_fault {s : State} (hb : s.phase = .busy) (r : Fault) : engineTurn s ≠ .fault r := by
  rcases engineTurn_busy hb with ⟨i, -, h⟩ | ⟨-, h⟩
  · exact h ▸ exec_ne_fault i s r
  · simp [h]

/-- Settles O20: each of the three ways a busy engine's turn can end is one completion. -/
theorem executeStepEndsInExactlyOneCompletion : Obligations.ExecuteStepEndsInExactlyOneCompletion := by
  intro s hb
  refine ⟨engineTurn_safe hb, engineTurn_ne_fault hb, fun t h => ?_⟩
  obtain ⟨hphase, hdone⟩ := engineTurn_completes hb h
  refine ⟨hphase, hdone, ?_⟩
  rcases engineTurn_next hb h with ⟨e, he, -, rfl⟩ | ⟨i, -, -, rfl⟩ | ⟨i, -, -, rfl⟩
  · exact ⟨iff_of_true rfl he, fun _ => rfl⟩
  · exact ⟨iff_of_false Bool.false_ne_true (not_not.2 rfl), fun herr => absurd herr Bool.false_ne_true⟩
  · exact ⟨iff_of_true rfl ErrorCode.noConfusion, fun _ => rfl⟩

/-- Settles O28: the engine's turn does nothing while IDLE. -/
theorem idleEngineHoldsItsState : Obligations.IdleEngineHoldsItsState := by
  intro s rest hi
  exact ⟨fun hs => (step_nil hs).trans (engineTurn_idle hi),
    fun hs => (step_engine hs).trans (engineTurn_idle (s := { s with schedule := rest }) hi)⟩

theorem getLsbD_ctrl_word_irqEn (c : Ctrl) : c.word.getLsbD 0 = c.irqEn := by
  simp [Ctrl.word, getElem_bitAt]

/-- Settles O37: the three bits read are the three fields of which irq is made. -/
theorem irqIsEnableAndDoneOrErr : Obligations.IrqIsEnableAndDoneOrErr := by
  intro s
  obtain ⟨-, hdone, herr, -⟩ := statusReadsItsFields s.phase s.status
  rw [irq, getLsbD_ctrl_word_irqEn, hdone, herr]

/-! ## Events that coincide with a completion (R294) -/

/-- A busy engine's turn changes STATUS but for CMD_IGNORED, OUT_LEN, the phase, memory and the count of draws. -/
theorem engineTurn_frame {s t : State} (hb : s.phase = .busy) (h : engineTurn s = .next t) :
    t = { s with status := t.status, outLen := t.outLen, phase := .idle, mem := t.mem, draws := t.draws } ∧
      t.status.cmdIgnored = s.status.cmdIgnored := by
  rcases engineTurn_next hb h with ⟨e, -, -, rfl⟩ | ⟨i, -, -, rfl⟩ | ⟨i, -, -, rfl⟩ <;> exact ⟨rfl, rfl⟩

/-- A run of two steps that does not stop. -/
theorem run2_eq_next {s t : State} (h : Sys2Proof.core.run 2 s = .next t) : ∃ u, step s = .next u ∧ step u = .next t := by
  cases hs : step s with
  | next u => exact ⟨u, rfl, (run2 hs).symm.trans h⟩
  | fault r => rw [run_stop hs (fun _ he => by cases he)] at h; cases h
  | refused r => rw [run_stop hs (fun _ he => by cases he)] at h; cases h

/-- Settles O41: the engine's turn leaves IDLE, and the write clears the bit of the completion. -/
theorem coincidentStatusWriteClearsTheCompletion : Obligations.CoincidentStatusWriteClearsTheCompletion := by
  intro s t v o rest hb ho hs h1 h2 hrun
  obtain rfl : o = [.engine, asmWr 0x08 v] := List.mem_singleton.1 ho
  obtain ⟨u, hu, ht⟩ := run2_eq_next hrun
  rw [step_engine hs] at hu
  obtain ⟨hframe, -⟩ := engineTurn_frame (s := { s with schedule := asmWr 0x08 v :: rest }) hb hu
  have hsched : u.schedule = asmWr 0x08 v :: rest := by rw [hframe]
  rw [step_write (by decide) hsched, writeOffset_status] at ht
  cases ht
  have hdone : (u.status.clear v).done = false := by simp [Status.clear, h1]
  have herr : (u.status.clear v).err = false := by simp [Status.clear, h2]
  refine ⟨by rw [hframe]; rfl, hdone, herr, ?_⟩
  simp [irq, hdone, herr]

section CoincidentCmdWrite

variable {s : State} {v : Word} {rest : List Turn} (hb : s.phase = .busy) (hsafe : turnIsSafe .engine s)
include hb hsafe

/-- The completion first: the CMD write finds an idle engine, and is accepted (10_state.md R65). -/
theorem run_completion_then_cmd (hs : s.schedule = .engine :: asmWr 0x04 v :: rest) :
    ∃ t, Sys2Proof.core.run 2 s = .next t ∧
      t.phase = .busy ∧ t.lat = latchOf v s ∧ t.status.cmdIgnored = s.status.cmdIgnored := by
  obtain ⟨u, hu⟩ := engineTurn_safe (s := { s with schedule := asmWr 0x04 v :: rest }) hb hsafe
  obtain ⟨hframe, hignored⟩ := engineTurn_frame (s := { s with schedule := asmWr 0x04 v :: rest }) hb hu
  refine ⟨accept v { u with schedule := rest }, ?_, rfl, ?_, hignored⟩
  · rw [run2 ((step_engine hs).trans hu)]
    exact step_cmd_idle (by rw [hframe]) (by rw [hframe])
  · rw [hframe]; rfl

/-- The CMD write first: it finds a busy engine, and is ignored (10_state.md R66). -/
theorem run_cmd_then_completion (hs : s.schedule = asmWr 0x04 v :: .engine :: rest) :
    ∃ t, Sys2Proof.core.run 2 s = .next t ∧ t.phase = .idle ∧ t.lat = s.lat ∧ t.status.cmdIgnored = true := by
  obtain ⟨t, ht⟩ := engineTurn_safe (s := ignoreCmd { s with schedule := rest }) hb hsafe
  obtain ⟨hframe, hignored⟩ := engineTurn_frame (s := ignoreCmd { s with schedule := rest }) hb ht
  refine ⟨t, ?_, by rw [hframe], by rw [hframe]; rfl, hignored⟩
  rw [run2 (cmdWriteWhileBusyIsIgnored s v (.engine :: rest) hb hs)]
  exact (step_engine rfl).trans ht

end CoincidentCmdWrite

/-- Settles O42: the two orders, each with its end. -/
theorem coincidentCmdWriteGoesEitherWay : Obligations.CoincidentCmdWriteGoesEitherWay := by
  intro s v rest hb hsafe
  obtain ⟨t, hrun, hphase, haccepted⟩ :=
    run_completion_then_cmd (s := { s with schedule := .engine :: asmWr 0x04 v :: rest }) hb hsafe rfl
  obtain ⟨t', hrun', hphase', hignored⟩ :=
    run_cmd_then_completion (s := { s with schedule := asmWr 0x04 v :: .engine :: rest }) hb hsafe rfl
  refine ⟨fun o ho => ?_, ⟨[.engine, asmWr 0x04 v], .head _, t, hrun, hphase⟩,
    ⟨[asmWr 0x04 v, .engine], .tail _ (.head _), t', hrun', hphase'⟩⟩
  simp only [Coincidence.orders, List.mem_cons, List.not_mem_nil, or_false] at ho
  rcases ho with rfl | rfl
  · exact ⟨t, hrun, .inl ⟨hphase, haccepted⟩⟩
  · exact ⟨t', hrun', .inr ⟨hphase', hignored⟩⟩

end Sys2Proof.Machine

/-! # Reset, hazards and work (70_reset_and_hazards.md)

Accesses to a running command's regions; events that coincide with reset; the AES128 calls of a command. -/

namespace Sys2Proof.Machine

/-! ## Accesses to a running command's regions (R330) -/

theorem inRunningOutput_iff {s : State} {i : Instr} (h : runningCommand s = some i) (a : Nat) :
    inRunningOutput s a = true ↔ inRegion (outputRegion i s.lat) a := by
  simp [inRunningOutput, h]

theorem inRunningRegions_iff {s : State} {i : Instr} (h : runningCommand s = some i) (a : Nat) :
    inRunningRegions s a = true ↔ ∃ r ∈ regions i s.lat, inRegion r a := by
  simp [inRunningRegions, h]

/-- A store into a region of the running command. -/
theorem memWrite_race {s : State} {a : Word} (hw : inWindow s a.toNat = false) (hd : isSideEffect s a.toNat = false)
    (hr : inRunningRegions s a.toNat = true) (b : Byte) : memWrite a b s = .fault .bufferRace := by
  simp [memWrite, hw, hd, hr]

/-- A load of a byte that the running command writes. -/
theorem memRead_running {s : State} {a : Word} (hw : inWindow s a.toNat = false) (hd : isSideEffect s a.toNat = false)
    (ho : inRunningOutput s a.toNat = true) :
    memRead a s = .next { s with hostValue := (Config.freeByte s.draws).setWidth 32, draws := s.draws + 1 } := by
  simp [memRead, hw, hd, ho]

/-- Settles O39: the running command is the one LAT.CMD names, and its regions decide between the host's turns. -/
theorem accessesToRunningBuffers : Obligations.AccessesToRunningBuffers := by
  intro s i a rest hb hi hwindow hdevice
  have hrun := runningCommand_eq hb hi
  have hw := (inWindow_eq_false_iff s a.toNat).2 hwindow
  have hd := (isSideEffect_eq_false_iff s a.toNat).2 hdevice
  refine ⟨fun b hin hs => ?_, fun hout hs => ?_, fun hout hs => ?_⟩
  · have hrace := (inRunningRegions_iff hrun a.toNat).2 hin
    exact (step_cons hs).trans (memWrite_race (s := { s with schedule := rest }) hw hd hrace b)
  · have hoccupied := (inRunningOutput_iff hrun a.toNat).2 hout
    exact (step_cons hs).trans (memRead_running (s := { s with schedule := rest }) hw hd hoccupied)
  · have hfree := Bool.eq_false_iff.2 (mt (inRunningOutput_iff hrun a.toNat).1 hout)
    exact step_load hw hd hfree hs

/-! ## Events that coincide with reset (R320) -/

theorem step_reset {s : State} {rest : List Turn} (hs : s.schedule = .reset :: rest) :
    step s = .next (resetTurn { s with schedule := rest }) := step_cons hs

theorem irq_resetTurn (s : State) : irq (resetTurn s) = false := by
  rw [resetTurn_eq]; rfl

/-- An idle engine has no command to abort, so reset touches the registers alone (R322). -/
theorem step_reset_idle {s : State} {rest : List Turn} (hi : s.phase = .idle) (hs : s.schedule = .reset :: rest) :
    step s = .next (resetRegisters { s with schedule := rest }) := by
  rw [step_reset hs, resetTurn_of_none (runningCommand_idle (s := { s with schedule := rest }) hi)]

/-- A register access that coincides with reset is lost. -/
theorem orders_resetWithAccess_register {p : Platform} {op : HostOp} (h : op.isRegisterAccess p = true) :
    (Coincidence.resetWithAccess op).orders p = [[.reset]] := if_pos h

/-- A store outside the register window comes before or after reset. -/
theorem orders_resetWithAccess_store {p : Platform} {a : Word} (h : ¬ inRegion (window p) a.toNat) (b : Byte) :
    (Coincidence.resetWithAccess (.memWrite a b)).orders p =
      [[.host (.memWrite a b), .reset], [.reset, .host (.memWrite a b)]] :=
  if_neg (mt of_decide_eq_true h)

/-- Settles O58: in each case reset's turn is the only one, and it leaves the reset state. -/
theorem resetWinsOverCoincidentEvents : Obligations.ResetWinsOverCoincidentEvents := by
  intro s op c rest hop hc
  have haccess : op.isRegisterAccess s.platform = true := by
    rcases hop with ⟨w, off, rfl⟩ | ⟨w, off, v, rfl⟩ | ⟨a, rfl | ⟨b, rfl⟩, ha⟩
    · rfl
    · rfl
    · exact decide_eq_true ha
    · exact decide_eq_true ha
  have horders : c.orders s.platform = [[.reset]] := by
    rcases hc with rfl | rfl
    · rfl
    · exact orders_resetWithAccess_register haccess
  rw [horders]
  refine ⟨List.cons_ne_nil _ _, fun o ho => ?_⟩
  obtain rfl := List.mem_singleton.1 ho
  exact ⟨resetTurn { s with schedule := rest }, (run1 _).trans (step_reset rfl), irq_resetTurn _, resetTurn_eq _⟩

section StoreWithReset

variable {s : State} {a : Word} {b : Byte} {rest : List Turn} (hi : s.phase = .idle)
  (hw : inWindow s a.toNat = false) (hd : isSideEffect s a.toNat = false)
include hi hw hd

/-- An idle engine has no region to race with. -/
theorem step_store_idle (hs : s.schedule = .host (.memWrite a b) :: rest) :
    step s = .next { s with schedule := rest, mem := writeByte s.mem a.toNat b } :=
  step_store hw hd ((inRunningRegions_eq_false_iff s _).2 fun hb => by rw [hi] at hb; cases hb) hs

theorem run_store_then_reset (hs : s.schedule = .host (.memWrite a b) :: .reset :: rest) :
    Sys2Proof.core.run 2 s = .next (resetRegisters { s with schedule := rest, mem := writeByte s.mem a.toNat b }) := by
  rw [run2 (step_store_idle hi hw hd hs)]
  exact step_reset_idle hi rfl

/-- Reset leaves the platform, which alone the store's checks read while IDLE. -/
theorem run_reset_then_store (hs : s.schedule = .reset :: .host (.memWrite a b) :: rest) :
    Sys2Proof.core.run 2 s = .next (resetRegisters { s with schedule := rest, mem := writeByte s.mem a.toNat b }) := by
  rw [run2 (step_reset_idle hi hs)]
  exact step_store_idle (s := resetRegisters { s with schedule := .host (.memWrite a b) :: rest }) rfl hw hd rfl

end StoreWithReset

/-- Settles O59: both orders end in the same state, whose memory has the one byte stored. -/
theorem storeWithResetIsKept : Obligations.StoreWithResetIsKept := by
  intro s a b rest hm hi hwindow hdevice
  have hw := (inWindow_eq_false_iff s a.toNat).2 hwindow
  have hd := (isSideEffect_eq_false_iff s a.toNat).2 hdevice
  have hread := readByte_writeByte hm a.toNat b
  rw [orders_resetWithAccess_store hwindow]
  refine ⟨List.cons_ne_nil _ _, fun o ho =>
    ⟨resetRegisters { s with schedule := rest, mem := writeByte s.mem a.toNat b }, ?_, (hread _).trans (if_pos rfl),
      fun x hx => (hread x).trans (if_neg hx), rfl⟩⟩
  simp only [List.mem_cons, List.not_mem_nil, or_false] at ho
  rcases ho with rfl | rfl
  · exact run_store_then_reset (s := { s with schedule := .host (.memWrite a b) :: .reset :: rest }) hi hw hd rfl
  · exact run_reset_then_store (s := { s with schedule := .reset :: .host (.memWrite a b) :: rest }) hi hw hd rfl

/-! ## The AES128 calls of a command (R346) -/

/-- Without associated data there is no header either, and no block for them (41_ccm.md R185). -/
theorem macCalls_eq (adLen pLen : Nat) :
    macCalls adLen pLen = 1 + ceil16 ((adHdr adLen).length + adLen) + ceil16 pLen := by
  cases adLen with
  | zero => rfl
  | succ n => rw [macCalls, if_pos n.succ_pos]

/-- The MAC stream is B0, the blocks of the associated data and those of the payload (41_ccm.md R195). -/
theorem blocks_ccmFormat_length {nonce : List Byte} (hn : nonce.length ≤ 13) (ad p : List Byte) (m : Nat) :
    (blocks (ccmFormat nonce ad p m)).length = macCalls ad.length p.length := by
  have hadMod := pad16_length_mod (adHdr ad.length ++ ad)
  have hadDiv := pad16_length_div (adHdr ad.length ++ ad)
  have hpDiv := pad16_length_div p
  rw [List.length_append] at hadDiv
  rw [blocks_length, ccmFormat_length hn, adBlocks_eq_pad16, macCalls_eq, ceil16, ceil16]
  omega

theorem keyStreamBlocks_length (k nonce : List Byte) (n : Nat) : (keyStreamBlocks k nonce n).length = ceil16 n := by
  simp [keyStreamBlocks, ceil16]

/-- R346's table for a CCM command: the MAC's calls, the keystream's and S_0's. -/
theorem macCalls_add_keyStream (adLen pLen : Nat) : macCalls adLen pLen + (ceil16 pLen + 1) =
    (if adLen > 0 then 1 + ((adHdr adLen).length + adLen + 15) / 16 else 1) + (2 * ((pLen + 15) / 16) + 1) := by
  unfold macCalls ceil16
  split_ifs <;> omega

theorem blocks_mmoPad_length (x : List Byte) : (blocks (mmoPad x)).length = mmoCalls x.length := by
  rw [blocks_length, mmoPad_length_eq_mmoCalls, Nat.mul_div_cancel_left _ (by decide)]

/-- A key pad and a sequence: 16 bytes and the sequence (43_hmac.md R261). -/
theorem keyPad_append_length (q : Quad) (b : Byte) (x : List Byte) :
    (xorBytes q.bytes (rep 16 b) ++ x).length = 16 + x.length := by
  simp [quad_bytes_length]

/-- Settles O49, command by command: the payload of CCM_DEC has SRC_LEN − M bytes, and HMAC_MMO's outer message 32. -/
theorem workIsTheNumberOfBlocks : Obligations.WorkIsTheNumberOfBlocks := by
  intro f l m hdr ccmBlocks ccmTable inner outer
  have hsrc : (srcBytes l m).length = l.srcLen.toNat := readBytes_length _ _ _
  have had : (adBytes l m).length = l.adLen.toNat := readBytes_length _ _ _
  have hinner : inner.length = 16 + l.srcLen.toNat := by rw [keyPad_append_length, hsrc]
  have houter : outer.length = 32 := by rw [keyPad_append_length, mmoHash_length]
  have hhash : aesCalls (.mmoHash f) l = (blocks (mmoPad (srcBytes l m))).length := by
    rw [blocks_mmoPad_length, hsrc]; rfl
  have hhmac : aesCalls (.hmacMmo f) l = (blocks (mmoPad inner)).length + 3 := by
    rw [blocks_mmoPad_length, hinner]; rfl
  refine ⟨rfl, fun hn => ?_, hhash, hhash.trans (blocks_length _), ?_, ?_⟩
  · have hnonce : (ccmNonce f l).length ≤ 13 := by rw [ccmNonce_length hn]; exact hn.2
    have hblocks (p : List Byte) : ccmBlocks p = macCalls l.adLen.toNat p.length + (ceil16 p.length + 1) := by
      simp only [ccmBlocks, blocks_ccmFormat_length hnonce, keyStreamBlocks_length, had, Nat.add_assoc]
    have hdec := ccmDec_length (quad_bytes_length l.key) hnonce (adBytes l m) (srcBytes l m) (ccmM f)
    refine ⟨?_, macCalls_add_keyStream _ _, ?_, macCalls_add_keyStream _ _⟩
    · rw [hblocks, hsrc]; rfl
    · rw [hblocks, hdec, hsrc]; rfl
  · rw [hhmac, blocks_mmoPad_length outer, houter]; rfl
  · rw [hhmac, blocks_length]

end Sys2Proof.Machine
